-- ==== Sys2Proof/Word.lean ====
section
/-!
DEFINITION. The data words of the block, named after the formats of spec/30_encoding.md
(rules R61 to R69), and the texts of spec/40_hex_text_parser.md rule R87.
-/
namespace Sys2Proof

/-- Format B, one byte of a bitplane (R62); also one byte of the byte block (R30). -/
abbrev Byte := BitVec 8

/-- Format W, the interleaved word of one tile row (R63). -/
abbrev RowWord := BitVec 16

/-- Format P, a pixel index, which selects one of the four palette registers (R64). -/
abbrev PixelIdx := BitVec 2

/-- A column of a tile row, 0 the leftmost, 7 the rightmost (R100). -/
abbrev Column := BitVec 3

/-- Format S, a palette value: a master-palette index in [0, 63] (R65). -/
abbrev PalValue := BitVec 6

/-- Format RGB, a pixel value: an ordered triple which the block only copies (R69).
DESIGN CHOICE (log 5): three 8-bit components, the layout spec D18 names. -/
structure RGB where
  red : BitVec 8
  green : BitVec 8
  blue : BitVec 8
  deriving DecidableEq, Repr, Inhabited

/-- Format XY, a raster coordinate: `x` from the left, `y` from the top (R68, R32). -/
structure Coord where
  x : Nat
  y : Nat
  deriving DecidableEq, Repr, Inhabited

/-- A coordinate of the 128 x 128 grid (R32). -/
abbrev Coord.InRaster (xy : Coord) : Prop := xy.x < 128 ∧ xy.y < 128

/-- A text: a finite sequence of characters (R87). -/
abbrev Text := List Char

/-- A token of a text: a run of characters (R80). -/
abbrev Token := List Char

/-- The offending value an error records: a token or a natural number (R26). -/
inductive ErrInfo where
  | token (t : Token)
  | num (n : Nat)
  deriving DecidableEq, Repr, Inhabited

end Sys2Proof
end

