-- ==== Sys2Proof/Config.lean ====
section
/-!
DEFINITION. The constants of spec/00_scope.md rule R7, the parameters rule R9 leaves open, and
the free values: what the spec leaves arbitrary, each an opaque constant with no body.
-/
namespace Sys2Proof.Config

/-- Bytes per tile (R7). -/
def TILE_BYTES : Nat := 16
/-- Rows per tile and columns per row (R7). -/
def TILE_DIM : Nat := 8
/-- Pixel indices per tile (R7). -/
def TILE_PIXELS : Nat := 64
/-- Master-palette entries (R7). -/
def MPAL_SIZE : Nat := 64
/-- Palette registers (R7). -/
def PAL_SLOTS : Nat := 4
/-- The canonical byte-block length (R7). -/
def CANON_LEN : Nat := 4096
/-- Raster width in tiles, hardwired (R8, R28). -/
def TW : Nat := 16
/-- Raster height in tiles, hardwired (R8, R28). -/
def TH : Nat := 16
/-- Raster width in pixels (R7). -/
def RW : Nat := 128
/-- Raster height in pixels (R7). -/
def RH : Nat := 128
/-- Pixels in the raster (R7). -/
def RASTER_PIXELS : Nat := 16384

/-- What a palette string of more than four tokens does (R114). -/
inductive PalExtraPolicy where
  | refuse
  | error
  | ignore
  deriving DecidableEq, Repr, Inhabited

/-- The parameters of R9, fixed for one machine. They are kept in `State.cfg`, which nothing
writes, so that a statement over every state covers every setting (log 7). -/
structure Params where
  /-- The master palette, a constant table (R31). -/
  mpal : Vector RGB 64
  /-- `STRICT_LEN`: is a length other than 4096 fatal (R105)? -/
  strictLen : Bool
  /-- `PAL_EXTRA_POLICY` (R114). -/
  palExtra : PalExtraPolicy
  /-- `LEN_MAX`, the largest loadable byte block; `none` is no bound (R27, R142). -/
  lenMax : Option Nat
  /-- `IsWS`: the characters that separate tokens (R81). -/
  ws : List Char
  deriving DecidableEq, Repr, Inhabited

/-- The 64 colours of the master palette, which the spec does not give (R31, N3). -/
opaque mpal : Vector RGB 64

/-- The six ASCII whitespace characters of R81: tab, line feed, vertical tab, form feed, carriage
return, space. -/
def asciiWS : List Char :=
  [Char.ofNat 0x09, Char.ofNat 0x0A, Char.ofNat 0x0B, Char.ofNat 0x0C, Char.ofNat 0x0D,
   Char.ofNat 0x20]

/-- The defaults of R9 (D10, D22, D23, D27). -/
def params : Params where
  mpal := mpal
  strictLen := false
  palExtra := .refuse
  lenMax := none
  ws := asciiWS

/-- Free value: what raster entry `i` (linear index) reads as when no run has written it, in draw
`d` (R131, U3, U4; log 8). -/
opaque freePixel (d i : Nat) : RGB

/-- Free value: ERRINFO handed over while ERR = 0 (R26, U5; log 10). -/
opaque freeErrInfo (d : Nat) : ErrInfo

/-- Free value: LEN as H_STATUS hands it over in ERROR (R168; log 11). -/
opaque freeLen (d : Nat) : Nat

/-- Free value: K as H_STATUS hands it over in ERROR (R168; log 11). -/
opaque freeK (d : Nat) : Nat

/-- Free value: how far above 257 the offending value of the RasterOverflow of `PLACE(i)` lies
(R125 writes it "..."; R160 gives code 4 a natural of at least 257; log 14). -/
opaque freeOverflow (i : Nat) : Nat

end Sys2Proof.Config
end

