-- ==== Sys2Proof/Syntax.lean ====
section
/-!
DEFINITION. The operations of the block: one constructor per row of spec/opcode_table.json, which
is the operation map of spec/30_encoding.md rule R71, in its order.
-/
namespace Sys2Proof

/-- One operation with its operands. No operation is selected by bits (R60); the operands are the
data of the formats R61 to R69 and the texts of R73. -/
inductive Instr where
  /-- TOKENIZE (R80): split a text into its tokens. -/
  | tokenize (text : Text)
  /-- HEXTOK (R82): one pattern-text token to one byte. -/
  | hextok (tok : Token)
  /-- HEXPARSE (R83): a pattern text to a byte sequence. -/
  | hexparse (text : Text)
  /-- ILV (R90): the low-plane and the high-plane byte of a row to the interleaved word. -/
  | ilv (low high : Byte)
  /-- PIX (R100): the pixel index of column `c` of an interleaved word. -/
  | pix (w : RowWord) (c : Column)
  /-- ROWDEC (R101): the eight pixel indices of one tile row. -/
  | rowdec (low high : Byte)
  /-- TDEC (R102): the 64 pixel indices of a tile of 16 bytes. -/
  | tdec (tile : List Byte)
  /-- PTDEC (R103): the pixel indices of a byte block. -/
  | ptdec (block : List Byte)
  /-- PALTOK (R111): one palette token to a natural number. -/
  | paltok (tok : Token)
  /-- PALPARSE (R113): a palette string to four palette values. -/
  | palparse (text : Text)
  /-- PALMAP (R117): a pixel index to a colour. -/
  | palmap (n : PixelIdx)
  /-- PALMAPSEQ (R118): a pixel-index sequence to a colour sequence. -/
  | palmapseq (idx : List PixelIdx)
  /-- PLACE (R125): a flat position to a raster coordinate. -/
  | place (i : Nat)
  /-- COMPOSE (R127): write a colour sequence into the raster. -/
  | compose (rgb : List RGB)
  /-- H_RESET (R140). -/
  | hReset
  /-- H_SETPAL (R141): set the palette from a configuration string. -/
  | hSetpal (text : Text)
  /-- H_LOADB (R142): load a byte block. -/
  | hLoadb (bytes : List Byte)
  /-- H_LOAD (R143): load a byte block from its hex text. -/
  | hLoad (text : Text)
  /-- H_START (R144): hand the loaded state to CORE. -/
  | hStart
  /-- RUN (R146): the whole run as one transition. -/
  | run
  /-- STEP (R147): one step of CORE. -/
  | step
  /-- H_STATUS (R149): read the status. -/
  | hStatus
  /-- H_READ (R150): read the raster. -/
  | hRead
  deriving DecidableEq, Repr, Inhabited

end Sys2Proof
end

