-- ==== Sys2Proof/WellFormed.lean ====
section
/-!
DEFINITION. Which operands an operation may carry, as the operand lists of spec/40 to 45 say.
-/
namespace Sys2Proof

/-- A token is a non-empty string without whitespace (R80, R82, R111), whitespace as R81 has it by
default. -/
def wfToken (t : Token) : Bool :=
  !t.isEmpty && t.all fun ch => !Config.asciiWS.contains ch

/-- The well-formed operations.
TDEC takes exactly 16 bytes (R102); COMPOSE is restricted to lengths that are multiples of 64
(R133); a bare token is a token (R82, R111).
DESIGN CHOICE (log 2): a flat position is below 2 ^ 32 in the model's serial form. -/
def wellFormed : Instr → Bool
  | .tokenize _ => true
  | .hextok tok => wfToken tok
  | .hexparse _ => true
  | .ilv _ _ => true
  | .pix _ _ => true
  | .rowdec _ _ => true
  | .tdec tile => tile.length == 16
  | .ptdec _ => true
  | .paltok tok => wfToken tok
  | .palparse _ => true
  | .palmap _ => true
  | .palmapseq _ => true
  | .place i => decide (i < 2 ^ 32)
  | .compose rgb => rgb.length % 64 == 0
  | .hReset => true
  | .hSetpal _ => true
  | .hLoadb _ => true
  | .hLoad _ => true
  | .hStart => true
  | .run => true
  | .step => true
  | .hStatus => true
  | .hRead => true

end Sys2Proof
end

