-- ==== Sys2Proof/Decode.lean ====
section
/-!
DEFINITION. The serial form of an operation, as bytes, its decoder and its encoder.

DESIGN CHOICE (log 2). The block has no operation codes and fetches no instructions (R60, R52, N12):
this form is the MODEL's, made so that the operations still to be carried out can stand in State as
plain data. Byte 0 is the operation's place in the table of R71, counted from 0; then its operands
in the formats of R61 to R69, each byte of a wider word the less significant first. A sequence has
a byte 1 before each element and a byte 0 after the last. A character is its code point in three
bytes. A flat position is four bytes.
-/
namespace Sys2Proof

/-- Why bytes are the serial form of no operation. -/
inductive DecodeError where
  /-- The bytes end inside an operation. -/
  | truncated
  /-- Byte 0 is the place of no row of the operation map. -/
  | unknownOperation (b : Nat)
  /-- A byte other than 0 or 1 stands where a sequence goes on or ends. -/
  | badMark (b : Byte)
  /-- Three bytes that are the code point of no character. -/
  | badCharacter (n : Nat)
  /-- A byte above 3 for a pixel index. -/
  | badIndex (b : Byte)
  /-- A byte above 7 for a column. -/
  | badColumn (b : Byte)
  /-- The operands are not well formed (`wellFormed`). -/
  | illFormed
  deriving DecidableEq, Repr, Inhabited

/-- What a decoder answers: a value and the bytes after it, or why there is none. -/
abbrev Read (α : Type) := Except DecodeError (α × List Byte)

/-- Read on after a value. -/
def andRead {α β : Type} (r : Read α) (f : α → List Byte → Read β) : Read β :=
  match r with
  | .ok (a, bs) => f a bs
  | .error e => .error e

/-- Make a value of what was read. -/
def asRead {α β : Type} (f : α → β) (r : Read α) : Read β :=
  match r with
  | .ok (a, bs) => .ok (f a, bs)
  | .error e => .error e

def readByte : List Byte → Read Byte
  | [] => .error .truncated
  | b :: bs => .ok (b, bs)

/-- A 16-bit word, the less significant byte first. -/
def readWord : List Byte → Read RowWord
  | b0 :: b1 :: bs => .ok (b1 ++ b0, bs)
  | _ => .error .truncated

/-- A flat position: four bytes, the least significant first. -/
def readFlat : List Byte → Read Nat
  | b0 :: b1 :: b2 :: b3 :: bs =>
    .ok (b0.toNat + 256 * b1.toNat + 65536 * b2.toNat + 16777216 * b3.toNat, bs)
  | _ => .error .truncated

/-- A character: its code point in three bytes, the least significant first. -/
def readChar : List Byte → Read Char
  | b0 :: b1 :: b2 :: bs =>
    let n := b0.toNat + 256 * b1.toNat + 65536 * b2.toNat
    if (Char.ofNat n).toNat = n then .ok (Char.ofNat n, bs) else .error (.badCharacter n)
  | _ => .error .truncated

def readColumn : List Byte → Read Column
  | [] => .error .truncated
  | b :: bs => if b.toNat < 8 then .ok (b.setWidth 3, bs) else .error (.badColumn b)

def readIndex : List Byte → Read PixelIdx
  | [] => .error .truncated
  | b :: bs => if b.toNat < 4 then .ok (b.setWidth 2, bs) else .error (.badIndex b)

def readRGB : List Byte → Read RGB
  | r :: g :: b :: bs => .ok (⟨r, g, b⟩, bs)
  | _ => .error .truncated

/-- Exactly `n` bytes. -/
def readCount : Nat → List Byte → Read (List Byte)
  | 0, bs => .ok ([], bs)
  | _ + 1, [] => .error .truncated
  | n + 1, b :: bs => asRead (b :: ·) (readCount n bs)

/-- A sequence of elements, on fuel: no element takes fewer bytes than its mark. -/
def readMarked {α : Type} (elem : List Byte → Read α) : Nat → List Byte → Read (List α)
  | 0, _ => .error .truncated
  | _ + 1, [] => .error .truncated
  | fuel + 1, b :: bs =>
    if b = 0#8 then .ok ([], bs)
    else if b = 1#8 then
      andRead (elem bs) fun a rest => asRead (a :: ·) (readMarked elem fuel rest)
    else .error (.badMark b)

def readSeq {α : Type} (elem : List Byte → Read α) (bs : List Byte) : Read (List α) :=
  readMarked elem bs.length bs

/-- The operands of the operation in place `op` of the table of R71. -/
def readOperands (op : Nat) (bs : List Byte) : Read Instr :=
  match op with
  | 0 => asRead .tokenize (readSeq readChar bs)
  | 1 => asRead .hextok (readSeq readChar bs)
  | 2 => asRead .hexparse (readSeq readChar bs)
  | 3 => andRead (readByte bs) fun low rest => asRead (.ilv low) (readByte rest)
  | 4 => andRead (readWord bs) fun w rest => asRead (.pix w) (readColumn rest)
  | 5 => andRead (readByte bs) fun low rest => asRead (.rowdec low) (readByte rest)
  | 6 => asRead .tdec (readCount 16 bs)
  | 7 => asRead .ptdec (readSeq readByte bs)
  | 8 => asRead .paltok (readSeq readChar bs)
  | 9 => asRead .palparse (readSeq readChar bs)
  | 10 => asRead .palmap (readIndex bs)
  | 11 => asRead .palmapseq (readSeq readIndex bs)
  | 12 => asRead .place (readFlat bs)
  | 13 => asRead .compose (readSeq readRGB bs)
  | 14 => .ok (.hReset, bs)
  | 15 => asRead .hSetpal (readSeq readChar bs)
  | 16 => asRead .hLoadb (readSeq readByte bs)
  | 17 => asRead .hLoad (readSeq readChar bs)
  | 18 => .ok (.hStart, bs)
  | 19 => .ok (.run, bs)
  | 20 => .ok (.step, bs)
  | 21 => .ok (.hStatus, bs)
  | 22 => .ok (.hRead, bs)
  | _ => .error (.unknownOperation op)

/-- The operation whose serial form the bytes begin with, and the bytes after it. -/
def decode : List Byte → Read Instr
  | [] => .error .truncated
  | op :: bs =>
    andRead (readOperands op.toNat bs) fun i rest =>
      if wellFormed i then .ok (i, rest) else .error .illFormed

/-! The encoder, written from the same table. -/

/-- An operation's place in the table of R71, counted from 0. -/
def opcode : Instr → Nat
  | .tokenize _ => 0
  | .hextok _ => 1
  | .hexparse _ => 2
  | .ilv _ _ => 3
  | .pix _ _ => 4
  | .rowdec _ _ => 5
  | .tdec _ => 6
  | .ptdec _ => 7
  | .paltok _ => 8
  | .palparse _ => 9
  | .palmap _ => 10
  | .palmapseq _ => 11
  | .place _ => 12
  | .compose _ => 13
  | .hReset => 14
  | .hSetpal _ => 15
  | .hLoadb _ => 16
  | .hLoad _ => 17
  | .hStart => 18
  | .run => 19
  | .step => 20
  | .hStatus => 21
  | .hRead => 22

/-- Byte `k` of a number, byte 0 the least significant. -/
def byteOf (n k : Nat) : Byte := BitVec.ofNat 8 (n / 256 ^ k)

def encodeByte (b : Byte) : List Byte := [b]

def encodeWord (w : RowWord) : List Byte := [w.extractLsb' 0 8, w.extractLsb' 8 8]

def encodeFlat (i : Nat) : List Byte := [byteOf i 0, byteOf i 1, byteOf i 2, byteOf i 3]

def encodeChar (c : Char) : List Byte := [byteOf c.toNat 0, byteOf c.toNat 1, byteOf c.toNat 2]

def encodeColumn (c : Column) : List Byte := [c.setWidth 8]

def encodeIndex (n : PixelIdx) : List Byte := [n.setWidth 8]

def encodeRGB (v : RGB) : List Byte := [v.red, v.green, v.blue]

/-- A sequence: a byte 1 before each element, a byte 0 after the last. -/
def encodeSeq {α : Type} (elem : α → List Byte) : List α → List Byte
  | [] => [0#8]
  | a :: rest => 1#8 :: (elem a ++ encodeSeq elem rest)

/-- The operands of an operation. -/
def encodeOperands : Instr → List Byte
  | .tokenize text => encodeSeq encodeChar text
  | .hextok tok => encodeSeq encodeChar tok
  | .hexparse text => encodeSeq encodeChar text
  | .ilv low high => [low, high]
  | .pix w c => encodeWord w ++ encodeColumn c
  | .rowdec low high => [low, high]
  | .tdec tile => tile
  | .ptdec block => encodeSeq encodeByte block
  | .paltok tok => encodeSeq encodeChar tok
  | .palparse text => encodeSeq encodeChar text
  | .palmap n => encodeIndex n
  | .palmapseq idx => encodeSeq encodeIndex idx
  | .place i => encodeFlat i
  | .compose rgb => encodeSeq encodeRGB rgb
  | .hReset => []
  | .hSetpal text => encodeSeq encodeChar text
  | .hLoadb bytes => encodeSeq encodeByte bytes
  | .hLoad text => encodeSeq encodeChar text
  | .hStart => []
  | .run => []
  | .step => []
  | .hStatus => []
  | .hRead => []

/-- The serial form of an operation. -/
def encode (i : Instr) : List Byte := BitVec.ofNat 8 (opcode i) :: encodeOperands i

/-! The host's numbering of an instruction's bits: bit 0 is the least significant bit of the first
byte, and a later byte's bits count on from it. -/

/-- How many zero bytes stand behind a word of the table: more than any operation with zero
operands takes. -/
def tablePadding : Nat := 64

/-- The first `n` bytes of a word, the least significant first. -/
def tableBytesFrom : Nat → Nat → List Byte
  | 0, _ => List.replicate tablePadding 0#8
  | n + 1, w => BitVec.ofNat 8 w :: tableBytesFrom n (w / 256)

/-- The bytes of an instruction of `nbits` bits whose bits are `w`, the bits above them 0. -/
def tableBytes (nbits w : Nat) : List Byte := tableBytesFrom ((nbits + 7) / 8) (w % 2 ^ nbits)

/-- What the decoder reads from an instruction whose bits are `w`. The rows of the opcode table
have no bits that tell them apart (R60: mask = match = 0 in every row), so that the table's one
word, 0, can be the serial form of one of them only: TOKENIZE of the empty text (log 2). -/
def decodeTableWord (nbits w : Nat) : Option Instr :=
  match decode (tableBytes nbits w) with
  | .ok (i, _) => some i
  | .error _ => none

/-- The bytes of that instruction, without what stands behind it; all of them where the decoder
refuses. -/
def tableOperationBytes (nbits w : Nat) : List Byte :=
  match decode (tableBytes nbits w) with
  | .ok (_, rest) => (tableBytes nbits w).take ((tableBytes nbits w).length - rest.length)
  | .error _ => tableBytes nbits w

end Sys2Proof
end

