-- ==== Sys2Proof/Machine/State.lean ====
section
/-!
DEFINITION. The state of the block (spec/10_state.md), what an operation can hand over, the errors
of spec/60_exceptions.md, and the reasons a step of the model can stop.
-/
namespace Sys2Proof.Machine

/-- The register PHASE: four named values without a numeric encoding (R23). -/
inductive Phase where
  /-- HOST owns everything; loading is allowed. -/
  | idle
  /-- CORE owns everything. -/
  | run
  /-- The run finished without error; HOST owns RAST for reading. -/
  | done
  /-- An error was raised; sticky until H_RESET. -/
  | error
  deriving DecidableEq, Repr, Inhabited

/-- The error kinds an operation of the block can raise (R160). IoFailure is never raised by the
block (R166), so that it needs no constructor. -/
inductive ErrKind where
  | parseError
  | invalidPaletteSlot
  | malformedTile
  | rasterOverflow
  | formatViolation
  deriving DecidableEq, Repr, Inhabited

/-- The pattern memory PT: address and byte, addresses strictly rising, no entry 0, every address
below LEN; an unlisted address below LEN reads as 0 (R30; log 9). -/
abbrev Memory := List Host.Cell

/-- The output raster RAST: linear index `y * 128 + x` and colour, indexes strictly rising and
below 16384; the entries no run has written are not listed (R32; log 8). -/
abbrev Raster := List (Nat × RGB)

/-- What H_STATUS hands over (R149). -/
structure Status where
  phase : Phase
  lenw : Bool
  err : BitVec 3
  errinfo : ErrInfo
  len : Nat
  k : Nat
  deriving DecidableEq, Repr, Inhabited

/-- What an operation hands to whoever issued it: the output column of the operation map (R71). -/
inductive Result where
  | nothing
  | tokens (ts : List Token)
  | byte (b : Byte)
  | bytes (bs : List Byte)
  | word (w : RowWord)
  | index (n : PixelIdx)
  | indices (ns : List PixelIdx)
  | nat (n : Nat)
  | palette (p : Vector PalValue 4)
  | colour (v : RGB)
  | colours (vs : List RGB)
  | coord (xy : Coord)
  | status (st : Status)
  /-- The 16384 entries of RAST, row by row (R150). -/
  | raster (vs : List RGB)
  /-- "or" the error of a stage operation carried out on its own, with its offending value (R71;
  log 12). -/
  | error (e : ErrKind) (info : ErrInfo)
  deriving DecidableEq, Repr, Inhabited

/-- The state of the machine: the spec's registers and memories, the parameters, and three fields
of the model's own. -/
structure State where
  /-- The palette registers PAL[0..3], 6 bits each (R21). -/
  pal : Vector PalValue 4
  /-- K, the flat pixel counter (R22). -/
  k : Nat
  /-- PHASE (R23). -/
  phase : Phase
  /-- LENW, the length warning (R24). -/
  lenw : Bool
  /-- ERR, the code of the first error raised since reset (R25). -/
  err : BitVec 3
  /-- ERRINFO, the offending value; not handed over while ERR = 0 (R26). -/
  errinfo : ErrInfo
  /-- LEN, the length of the byte block in PT (R27). -/
  len : Nat
  /-- PT, the pattern memory (R30). -/
  pt : Memory
  /-- RAST, the output raster (R32). -/
  rast : Raster
  /-- MPAL and the other parameters of R9; nothing writes them (R31, log 7). -/
  cfg : Config.Params
  /-- The MODEL's: what the last operation handed over (log 3). -/
  out : Result
  /-- The MODEL's: how many free values have been drawn (log 4). -/
  draws : Nat
  /-- The MODEL's: the operations of HOST and CORE still to be carried out, in order, in the serial
  form of Sys2Proof/Decode.lean (logs 1, 2). -/
  queue : List Byte
  deriving DecidableEq, Repr, Inhabited

/-- The machine right after power-on, R36 and R180: PAL 0, PT empty, LEN 0, K 0, IDLE, LENW 0,
ERR 0, nothing of RAST written, the parameters at the defaults of R9.
DESIGN CHOICE, unsafe (log 10): ERRINFO, unspecified at reset, is stored as the number 0; no
operation hands the stored value over while ERR = 0.
DESIGN CHOICE, safe (logs 1, 3, 4): the model's own fields start empty. -/
def State.reset : State where
  pal := #v[0#6, 0#6, 0#6, 0#6]
  k := 0
  phase := .idle
  lenw := false
  err := 0#3
  errinfo := .num 0
  len := 0
  pt := []
  rast := []
  cfg := Config.params
  out := .nothing
  draws := 0
  queue := []

/-- What stops the machine for good. -/
inductive Fault where
  /-- A read of PT at an address at or above LEN, which does not exist (R30, R44). Raised by a
  STEP, only in states no run reaches (log 18). Safe: the model stops where the spec gives no
  value. -/
  | noSuchAddress (a : Nat)
  deriving DecidableEq, Repr, Inhabited

/-- Why the model gives an operation no meaning. -/
inductive Refusal where
  /-- An operation that has no meaning yet: raised by `exec`'s arm only. Safe. -/
  | notModelled (mnemonic : String)
  /-- An operation issued in a phase that does not accept it: raised by the host operations, STEP
  and RUN (R153, R184), by an operation that can raise in ERROR (R169, R170), by PALMAP and
  PALMAPSEQ outside RUN (R172) and by COMPOSE outside RUN (R132, R172). Safe (log 13). -/
  | wrongPhase (mnemonic : String) (p : Phase)
  /-- An error raised in RUN, from where no transition to ERROR exists (R23): raised by STEP and RUN
  in states no run reaches (log 18). Safe. -/
  | raisedOutsideIdle (e : ErrKind)
  /-- A text with a character above U+007F (R81): raised by TOKENIZE, HEXPARSE, PALPARSE, H_SETPAL
  and H_LOAD. Safe. -/
  | nonAscii
  /-- A palette string of more than four tokens under PAL_EXTRA_POLICY = refuse (R114): raised by
  PALPARSE and H_SETPAL. Safe. -/
  | tooManyPaletteTokens (n : Nat)
  /-- A byte block longer than LEN_MAX (R142): raised by H_LOADB and H_LOAD. Safe. -/
  | overCapacity (n : Nat)
  /-- A colour sequence whose length is no multiple of 64 (R133): raised by COMPOSE. Safe. -/
  | raggedColours (n : Nat)
  /-- A tile that is not 16 bytes (R102): raised by TDEC. Safe. -/
  | notATile (n : Nat)
  /-- The queue begins with the serial form of no operation: raised by `step`. Safe (log 2). -/
  | undecodable (e : DecodeError)
  deriving DecidableEq, Repr, Inhabited

/-- What a step of this machine answers. -/
abbrev Outcome := Host.Outcome State Fault Refusal

/-- What a stage function answers before the machine takes it up: a value, an error raised with its
offending value (R11), or no meaning. -/
inductive Answer (α : Type) where
  | value (a : α)
  | raised (e : ErrKind) (info : ErrInfo)
  | refused (r : Refusal)
  deriving DecidableEq, Repr, Inhabited

end Sys2Proof.Machine
end

