-- ==== Sys2Proof/Machine/Ops.lean ====
section
/-!
DEFINITION. The named operations over registers and memories, taking an error (trap entry), and
fetching the next operation.
-/
namespace Sys2Proof.Machine

/-! Register updates, one per register. -/

def State.setPal (s : State) (p : Vector PalValue 4) : State := { s with pal := p }
def State.setK (s : State) (k : Nat) : State := { s with k := k }
def State.setPhase (s : State) (p : Phase) : State := { s with phase := p }
def State.setLenw (s : State) (b : Bool) : State := { s with lenw := b }
/-- PT and LEN are written together, as a whole (R27, R30). -/
def State.setBlock (s : State) (pt : Memory) (len : Nat) : State := { s with pt := pt, len := len }
def State.setRast (s : State) (r : Raster) : State := { s with rast := r }
def State.setOut (s : State) (r : Result) : State := { s with out := r }
def State.setQueue (s : State) (q : List Byte) : State := { s with queue := q }
/-- Count one more draw of free values (log 4). -/
def State.drawn (s : State) : State := { s with draws := s.draws + 1 }

/-! The hardwired registers (R28). -/

/-- The register TW: reads as 16. -/
def State.tw (_ : State) : Nat := Config.TW
/-- The register TH: reads as 16. -/
def State.th (_ : State) : Nat := Config.TH

/-- The number of whole tiles in the byte block, NT (R27). -/
def State.nt (s : State) : Nat := s.len / Config.TILE_BYTES

/-! Cells: a list of addresses and elements, addresses strictly rising. -/

/-- The element listed at an address. -/
def cellGet {α : Type} : List (Nat × α) → Nat → Option α
  | [], _ => none
  | (b, v) :: rest, a => if b = a then some v else cellGet rest a

/-- The cells with the element at an address replaced or added. -/
def cellPut {α : Type} : List (Nat × α) → Nat → α → List (Nat × α)
  | [], a, v => [(a, v)]
  | (b, w) :: rest, a, v =>
    if a < b then (a, v) :: (b, w) :: rest
    else if a = b then (a, v) :: rest
    else (b, w) :: cellPut rest a v

/-- Every address from `lo` on, strictly rising, and below `hi`. -/
def cellsWithin {α : Type} : Nat → Nat → List (Nat × α) → Bool
  | _, _, [] => true
  | lo, hi, (a, _) :: rest => decide (lo ≤ a) && decide (a < hi) && cellsWithin (a + 1) hi rest

/-! PT, the pattern memory (R30). -/

/-- What an unlisted address below LEN reads as (log 9). -/
def Memory.unlisted : Byte := 0#8

/-- The canonical form: addresses strictly rising, all below LEN, no entry equal to what an
unlisted address reads as. -/
def Memory.wf (m : Memory) (len : Nat) : Bool :=
  cellsWithin 0 len m && m.all fun c => c.2 != Memory.unlisted

/-- The byte at an address; the address is below LEN. -/
def Memory.peek (m : Memory) (a : Nat) : Byte := (cellGet m a).getD Memory.unlisted

/-- The cells that hold a byte sequence from address `a` on. -/
def Memory.ofBytesFrom : Nat → List Byte → Memory
  | _, [] => []
  | a, b :: bs =>
    if b = Memory.unlisted then Memory.ofBytesFrom (a + 1) bs
    else (a, b) :: Memory.ofBytesFrom (a + 1) bs

/-- The memory that holds a byte sequence from address 0 on (R142). -/
def Memory.ofBytes (bs : List Byte) : Memory := Memory.ofBytesFrom 0 bs

/-- `MemRead(PT, a)`: an address at or above LEN does not exist (R11, R30). -/
def State.ptRead (s : State) (a : Nat) : Option Byte :=
  if a < s.len then some (s.pt.peek a) else none

/-- `PT[0 .. LEN - 1]`, the byte block (R103). -/
def State.block (s : State) : List Byte := (List.range s.len).map s.pt.peek

/-! PAL and MPAL. -/

/-- `PAL[n]` (R21). -/
def State.palRead (s : State) (n : PixelIdx) : PalValue := s.pal[n.toNat]'(n.isLt)

/-- `MemRead(MPAL, a)` (R31). -/
def State.mpalRead (s : State) (a : PalValue) : RGB := s.cfg.mpal[a.toNat]'(a.isLt)

/-! RAST, the output raster (R32). -/

/-- The linear index of a coordinate, row by row (R32, D20). -/
def rasterIndex (xy : Coord) : Nat := xy.y * Config.RW + xy.x

/-- The canonical form: indexes strictly rising and below 16384. -/
def Raster.wf (r : Raster) : Bool := cellsWithin 0 Config.RASTER_PIXELS r

/-- `MemWrite(RAST, (x, y), v)` (R11). -/
def Raster.write (r : Raster) (xy : Coord) (v : RGB) : Raster := cellPut r (rasterIndex xy) v

/-- The colour a run has written at a coordinate, if one has. -/
def Raster.written (r : Raster) (xy : Coord) : Option RGB := cellGet r (rasterIndex xy)

/-- Entry `i` as draw `d` hands it over: a free value where no run has written (R131; log 8). -/
def Raster.entry (r : Raster) (d i : Nat) : RGB := (cellGet r i).getD (Config.freePixel d i)

/-- The whole raster, row by row (R150). -/
def Raster.view (r : Raster) (d : Nat) : List RGB :=
  (List.range Config.RASTER_PIXELS).map (r.entry d)

/-! Errors (spec/60_exceptions.md). -/

/-- The code of an error kind (R160). -/
def ErrKind.code : ErrKind → BitVec 3
  | .parseError => 1#3
  | .invalidPaletteSlot => 2#3
  | .malformedTile => 3#3
  | .rasterOverflow => 4#3
  | .formatViolation => 6#3

/-- Trap entry (R168): ERR, ERRINFO and PHASE are written and nothing else; the operation hands
nothing over. The registers the spec then calls not observable stay as they were (log 11). -/
def trapEntry (e : ErrKind) (info : ErrInfo) (s : State) : State :=
  { s with err := e.code, errinfo := info, phase := .error, out := .nothing }

/-- `raise E(info)` (R11). Trap entry exists from IDLE alone (R23: the only transitions to ERROR
start in IDLE; R169, R170); elsewhere a raise has no meaning (log 18). -/
def raiseError (e : ErrKind) (info : ErrInfo) (s : State) : Outcome :=
  if s.phase = .idle then .next (trapEntry e info s) else .refused (.raisedOutsideIdle e)

/-- Take up a stage function's answer inside an operation that raises its errors (H_SETPAL, H_LOAD,
RUN, STEP): go on with its value, raise its error, or refuse. -/
def conclude {α : Type} (s : State) (a : Answer α) (k : α → Outcome) : Outcome :=
  match a with
  | .value v => k v
  | .raised e info => raiseError e info s
  | .refused r => .refused r

/-- Go on with an answer's value inside a stage function. -/
def Answer.andThen {α β : Type} (a : Answer α) (f : α → Answer β) : Answer β :=
  match a with
  | .value v => f v
  | .raised e info => .raised e info
  | .refused r => .refused r

/-- The operation completes and hands a result over. -/
def handOver (r : Result) (s : State) : Outcome := .next (s.setOut r)

/-- Take up the answer of a stage function that is carried out on its own: go on with its value, hand
its error over as the operation's output (R71: "byte, or `ParseError`"), or refuse. No register
changes with an error: R23 lets H_SETPAL, H_LOAD and H_START alone enter ERROR, as R161 to R165 and
D12 do (DEDUCED, log 12). -/
def onItsOwn {α : Type} (s : State) (a : Answer α) (k : α → Outcome) : Outcome :=
  match a with
  | .value v => k v
  | .raised e info => handOver (.error e info) s
  | .refused r => .refused r

/-- An operation that only one phase accepts (R153, R172). -/
def onlyIn (p : Phase) (mnemonic : String) (s : State) (k : Outcome) : Outcome :=
  if s.phase = p then k else .refused (.wrongPhase mnemonic s.phase)

/-- An operation that one phase does not accept (R153, R169). -/
def notIn (p : Phase) (mnemonic : String) (s : State) (k : Outcome) : Outcome :=
  if s.phase = p then .refused (.wrongPhase mnemonic s.phase) else k

/-! Fetching the next operation (log 1). -/

/-- What the machine does next. -/
inductive Fetched where
  /-- An operation, and the state without it. -/
  | operation (i : Instr) (s : State)
  /-- Nothing is to be done: the block waits for HOST (R182). -/
  | waiting
  /-- The queue begins with the serial form of no operation. -/
  | undecodable (e : DecodeError)

/-- The next operation: the first of the queue; where the queue is empty, CORE's STEP while
PHASE = RUN (R147, R189), and otherwise none (R182). -/
def fetch (s : State) : Fetched :=
  match s.queue with
  | [] => if s.phase = .run then .operation .step s else .waiting
  | b :: bs =>
    match decode (b :: bs) with
    | .ok (i, rest) => .operation i (s.setQueue rest)
    | .error e => .undecodable e

/-- HOST issues the operations these bytes are the serial form of. A synchronous HOST issues one only
when the one before is complete (R49, R187), so that it finds no operation of its own in the queue.
DESIGN CHOICE (log 1): where operations still stand in the queue, which such a HOST never does, the
ones issued now are carried out before them. -/
def State.issue (s : State) (bs : List Byte) : State := s.setQueue (bs ++ s.queue)

end Sys2Proof.Machine
end

