-- ==== Sys2Proof/Machine/Operands.lean ====
section
/-!
DEFINITION. The operand forms: whitespace and digits of the two text syntaxes
(spec/30_encoding.md R75), and the fields of the formats K, A and XY (R66 to R68).
-/
namespace Sys2Proof.Machine

/-! Characters and digits. -/

/-- Every character is at most U+007F (R81). -/
def asciiText (text : Text) : Bool := text.all fun ch => decide (ch.toNat < 128)

/-- `IsWS` (R81). -/
def isWS (ws : List Char) (ch : Char) : Bool := ws.contains ch

/-- The value of a decimal digit `0`-`9` (R75). -/
def decVal (ch : Char) : Option Nat :=
  if 48 ≤ ch.toNat ∧ ch.toNat ≤ 57 then some (ch.toNat - 48) else none

/-- The value of a hexadecimal digit `0`-`9`, `a`-`f`, `A`-`F` (R82). -/
def hexVal (ch : Char) : Option Nat :=
  if 48 ≤ ch.toNat ∧ ch.toNat ≤ 57 then some (ch.toNat - 48)
  else if 97 ≤ ch.toNat ∧ ch.toNat ≤ 102 then some (ch.toNat - 87)
  else if 65 ≤ ch.toNat ∧ ch.toNat ≤ 70 then some (ch.toNat - 55)
  else none

/-- The value of a digit string in a base, first digit most significant, continuing from `acc`;
none where a character is no digit (R82, R111). -/
def digitsFrom (digit : Char → Option Nat) (base : Nat) : Nat → List Char → Option Nat
  | acc, [] => some acc
  | acc, ch :: rest =>
    match digit ch with
    | some d => digitsFrom digit base (acc * base + d) rest
    | none => none

/-- The value of a digit string of one digit or more. -/
def digits (digit : Char → Option Nat) (base : Nat) : List Char → Option Nat
  | [] => none
  | ch :: rest => digitsFrom digit base 0 (ch :: rest)

/-! Format K: a flat position is `64 * t + 8 * r + c` (R66, R22). -/

/-- The tile index `t`. -/
def tileOf (i : Nat) : Nat := i / Config.TILE_PIXELS
/-- The row `r` within the tile. -/
def rowOf (i : Nat) : Nat := i % Config.TILE_PIXELS / Config.TILE_DIM
/-- The column `c` within the row. -/
def columnOf (i : Nat) : Column := BitVec.ofNat 3 (i % Config.TILE_DIM)

/-! Format A: the pattern-memory addresses of a row (R67, R41, R46). -/

/-- The address of the low-plane byte of the row that holds flat position `i`. -/
def lowAddress (i : Nat) : Nat := Config.TILE_BYTES * tileOf i + rowOf i
/-- The address of the high-plane byte of the row that holds flat position `i`. -/
def highAddress (i : Nat) : Nat := Config.TILE_BYTES * tileOf i + 8 + rowOf i

/-! Format XY: the raster coordinate of a flat position (R68, R125). -/

/-- The coordinate of flat position `i` in a grid `tw` tiles wide. -/
def coordOf (tw i : Nat) : Coord where
  x := tileOf i % tw * Config.TILE_DIM + i % Config.TILE_PIXELS % Config.TILE_DIM
  y := tileOf i / tw * Config.TILE_DIM + i % Config.TILE_PIXELS / Config.TILE_DIM

end Sys2Proof.Machine
end

