-- ==== Sys2Proof/Machine/Compositor.lean ====
section
/-!
DEFINITION. The Tile Compositor (spec/44_tile_compositor.md): PLACE, COMPOSE.
-/
namespace Sys2Proof.Machine

/-- PLACE (R125); outside the grid it raises RasterOverflow, whose offending value the spec does
not state for PLACE on its own: a free natural of at least 257 (R160; log 14). -/
def State.place (s : State) (i : Nat) : Answer Coord :=
  if s.tw * s.th ≤ tileOf i then
    .raised .rasterOverflow (.num (257 + Config.freeOverflow i))
  else .value (coordOf s.tw i)

/-- The raster with a colour sequence written from flat position `i` on (R127). -/
def composeFrom (tw : Nat) : Nat → List RGB → Raster → Raster
  | _, [], r => r
  | i, v :: vs, r => composeFrom tw (i + 1) vs (r.write (coordOf tw i) v)

/-- COMPOSE (R127): the capacity check (R126), then every write; a length that is no multiple of
64 has no meaning (R133). -/
def State.compose (s : State) (rgb : List RGB) : Answer Raster :=
  if rgb.length % Config.TILE_PIXELS ≠ 0 then .refused (.raggedColours rgb.length)
  else if s.tw * s.th < rgb.length / Config.TILE_PIXELS then
    .raised .rasterOverflow (.num (rgb.length / Config.TILE_PIXELS))
  else .value (composeFrom s.tw 0 rgb s.rast)

/-- PLACE, issued on its own (R125): the coordinate or the error (U14; log 12); it can raise, so that
ERROR does not accept it (R169). -/
def execPlace (i : Nat) (s : State) : Outcome :=
  notIn .error "PLACE" s (onItsOwn s (s.place i) fun xy => handOver (.coord xy) s)

/-- COMPOSE, issued on its own (R127): it writes RAST, in RUN alone (R132, R172; log 13), or hands its
error over (log 12); it can raise, so that ERROR does not accept it (R169). DESIGN CHOICE (log 25): the spec is silent on a
COMPOSE between STEPs; the model carries it out at every K and for every number of whole tiles up to
256, whatever NT is, so that beside R129 and R131 an entry can be written twice before DONE, or
outside the first NT tiles. -/
def execCompose (rgb : List RGB) (s : State) : Outcome :=
  notIn .error "COMPOSE" s
    (onItsOwn s (s.compose rgb) fun r =>
      onlyIn .run "COMPOSE" s (handOver .nothing (s.setRast r)))

end Sys2Proof.Machine
end

