-- ==== Sys2Proof/Machine/HexText.lean ====
section
/-!
DEFINITION. The Hex-Text Parser (spec/40_hex_text_parser.md): TOKENIZE, HEXTOK, HEXPARSE.
-/
namespace Sys2Proof.Machine

/-- The tokens of the rest of a text, `cur` being the token under way (R80). -/
def tokenizeFrom (ws : List Char) : Token → Text → List Token
  | cur, [] => if cur = [] then [] else [cur]
  | cur, ch :: rest =>
    if isWS ws ch then
      if cur = [] then tokenizeFrom ws [] rest else cur :: tokenizeFrom ws [] rest
    else tokenizeFrom ws (cur ++ [ch]) rest

/-- TOKENIZE (R80); a text with a character above U+007F has no meaning (R81). -/
def tokenize (ws : List Char) (text : Text) : Answer (List Token) :=
  if asciiText text then .value (tokenizeFrom ws [] text) else .refused .nonAscii

/-- The byte a valid hexadecimal token spells: one or two digits (R82). -/
def hexByte : Token → Option Byte
  | [d] => (hexVal d).map fun v => BitVec.ofNat 8 v
  | [d1, d0] =>
    match hexVal d1, hexVal d0 with
    | some v1, some v0 => some (BitVec.ofNat 8 (16 * v1 + v0))
    | _, _ => none
  | _ => none

/-- HEXTOK (R82). -/
def hextok (tok : Token) : Answer Byte :=
  match hexByte tok with
  | some b => .value b
  | none => .raised .parseError (.token tok)

/-- Every token converted, in token order; the first invalid one is the one reported (R85). -/
def hextokAll : List Token → Answer (List Byte)
  | [] => .value []
  | tok :: toks =>
    (hextok tok).andThen fun b => (hextokAll toks).andThen fun bs => .value (b :: bs)

/-- HEXPARSE (R83). -/
def hexparse (ws : List Char) (text : Text) : Answer (List Byte) :=
  (tokenize ws text).andThen hextokAll

/-- TOKENIZE, issued on its own: a function of its operand, accepted in every phase (R80). -/
def execTokenize (text : Text) (s : State) : Outcome :=
  onItsOwn s (tokenize s.cfg.ws text) fun ts => handOver (.tokens ts) s

/-- HEXTOK, issued on its own (R82): the byte or the error (log 12); it can raise, so that ERROR does
not accept it (R169). -/
def execHextok (tok : Token) (s : State) : Outcome :=
  notIn .error "HEXTOK" s (onItsOwn s (hextok tok) fun b => handOver (.byte b) s)

/-- HEXPARSE, issued on its own (R83): the bytes or the error (log 12); it can raise, so that ERROR
does not accept it (R169). -/
def execHexparse (text : Text) (s : State) : Outcome :=
  notIn .error "HEXPARSE" s (onItsOwn s (hexparse s.cfg.ws text) fun bs => handOver (.bytes bs) s)

end Sys2Proof.Machine
end

