-- ==== Sys2Proof/Machine/Interleaver.lean ====
section
/-!
DEFINITION. The Bitplane Interleaver (spec/41_bitplane_interleaver.md): ILV.
-/
namespace Sys2Proof.Machine

/-- One bit of a plane byte as a 16-bit number, 0 or 1. -/
def planeBit (b : Byte) (j : Nat) : RowWord := if b.getLsbD j then 1#16 else 0#16

/-- The word with the pair of column `c` added (R90). -/
def ilvColumn (low high : Byte) (w : RowWord) (c : Nat) : RowWord :=
  w ||| (planeBit high (7 - c) <<< (15 - 2 * c)) ||| (planeBit low (7 - c) <<< (14 - 2 * c))

/-- ILV (R90): the columns from 0 to 7, one pair each. -/
def ilv (low high : Byte) : RowWord := (List.range 8).foldl (ilvColumn low high) 0#16

/-- ILV, issued on its own: total, accepted in every phase (R91). -/
def execIlv (low high : Byte) (s : State) : Outcome := handOver (.word (ilv low high)) s

end Sys2Proof.Machine
end

