-- ==== Sys2Proof/Machine/Palette.lean ====
section
/-!
DEFINITION. The palette configuration and the Palette Mapper (spec/43_palette_mapper.md): PALTOK,
PALPARSE, PALMAP, PALMAPSEQ.
-/
namespace Sys2Proof.Machine

/-- The number a palette token spells: decimal digits, or hexadecimal digits behind `0x` or `0X`
(R111); none for every other token. -/
def palNumber (tok : Token) : Option Nat :=
  match digits decVal 10 tok with
  | some v => some v
  | none =>
    match tok with
    | c0 :: c1 :: rest =>
      if c0.toNat = 48 ∧ (c1.toNat = 120 ∨ c1.toNat = 88) then digits hexVal 16 rest else none
    | _ => none

/-- PALTOK (R111). -/
def paltok (tok : Token) : Answer Nat :=
  match palNumber tok with
  | some v => .value v
  | none => .raised .invalidPaletteSlot (.token tok)

/-- PALTOK and the range check: a value of 64 or more is not representable (R112). -/
def palSlot (tok : Token) : Answer PalValue :=
  (paltok tok).andThen fun v =>
    if v < Config.MPAL_SIZE then .value (BitVec.ofNat 6 v)
    else .raised .invalidPaletteSlot (.token tok)

/-- Every token converted, in token order; the first offending one is the one reported (R113). -/
def palSlots : List Token → Answer (List PalValue)
  | [] => .value []
  | tok :: toks =>
    (palSlot tok).andThen fun v => (palSlots toks).andThen fun vs => .value (v :: vs)

/-- The four palette values: missing trailing entries are 0 (R113). -/
def palFill (vs : List PalValue) : Vector PalValue 4 :=
  #v[vs.getD 0 0#6, vs.getD 1 0#6, vs.getD 2 0#6, vs.getD 3 0#6]

/-- The palette of a token sequence; more than four tokens by PAL_EXTRA_POLICY (R113, R114). -/
def palOfTokens (policy : Config.PalExtraPolicy) (toks : List Token) : Answer (Vector PalValue 4) :=
  if toks.length ≤ Config.PAL_SLOTS then (palSlots toks).andThen fun vs => .value (palFill vs)
  else
    match policy with
    | .refuse => .refused (.tooManyPaletteTokens toks.length)
    | .error =>
      (palSlots (toks.take Config.PAL_SLOTS)).andThen fun _ =>
        .raised .invalidPaletteSlot (.token (toks.getD Config.PAL_SLOTS []))
    | .ignore =>
      (palSlots (toks.take Config.PAL_SLOTS)).andThen fun vs => .value (palFill vs)

/-- PALPARSE (R113). -/
def palparse (cfg : Config.Params) (text : Text) : Answer (Vector PalValue 4) :=
  (tokenize cfg.ws text).andThen (palOfTokens cfg.palExtra)

/-- PALMAP (R117): `MPAL[PAL[n]]`. -/
def State.palmap (s : State) (n : PixelIdx) : RGB := s.mpalRead (s.palRead n)

/-- PALMAPSEQ (R118). -/
def State.palmapseq (s : State) (idx : List PixelIdx) : List RGB := idx.map s.palmap

/-- PALTOK, issued on its own (R111): the number or the error (log 12); it can raise, so that ERROR
does not accept it (R169). -/
def execPaltok (tok : Token) (s : State) : Outcome :=
  notIn .error "PALTOK" s (onItsOwn s (paltok tok) fun v => handOver (.nat v) s)

/-- PALPARSE, issued on its own (R113): the palette or the error (log 12); it can raise, so that ERROR
does not accept it (R169). -/
def execPalparse (text : Text) (s : State) : Outcome :=
  notIn .error "PALPARSE" s (onItsOwn s (palparse s.cfg text) fun p => handOver (.palette p) s)

/-- PALMAP, issued on its own (R117): PAL and MPAL are read in RUN alone (R172). -/
def execPalmap (n : PixelIdx) (s : State) : Outcome :=
  onlyIn .run "PALMAP" s (handOver (.colour (s.palmap n)) s)

/-- PALMAPSEQ, issued on its own (R118): PAL and MPAL are read in RUN alone (R172). -/
def execPalmapseq (idx : List PixelIdx) (s : State) : Outcome :=
  onlyIn .run "PALMAPSEQ" s (handOver (.colours (s.palmapseq idx)) s)

end Sys2Proof.Machine
end

