-- ==== Sys2Proof/Machine/PatternDecoder.lean ====
section
/-!
DEFINITION. The Pattern Decoder (spec/42_pattern_decoder.md): PIX, ROWDEC, TDEC, PTDEC.
-/
namespace Sys2Proof.Machine

/-- PIX (R100): `(W >> (14 - 2c)) & 3`. -/
def pix (w : RowWord) (c : Column) : PixelIdx := ((w >>> (14 - 2 * c.toNat)) &&& 3#16).setWidth 2

/-- ROWDEC (R101): the indices of columns 0 to 7. -/
def rowdec (low high : Byte) : List PixelIdx :=
  (List.range 8).map fun c => pix (ilv low high) (BitVec.ofNat 3 c)

/-- TDEC (R102): rows 0 to 7; the low-plane byte of row `r` is `b[r]`, the high-plane byte
`b[8 + r]` (R41). The tile has 16 bytes. -/
def tdec (b : List Byte) : List PixelIdx :=
  (List.range 8).flatMap fun r => rowdec (b.getD r 0#8) (b.getD (8 + r) 0#8)

/-- Tile `t` of a byte block: its bytes `16t` to `16t + 15` (R44). -/
def tileBytes (block : List Byte) (t : Nat) : List Byte :=
  (block.drop (Config.TILE_BYTES * t)).take Config.TILE_BYTES

/-- The pixel indices of the whole tiles of a block, tile 0 first (R103). -/
def decodeTiles (block : List Byte) : List PixelIdx :=
  (List.range (block.length / Config.TILE_BYTES)).flatMap fun t => tdec (tileBytes block t)

/-- PTDEC (R103); a length that is no multiple of 16 raises MalformedTile (R104). -/
def ptdec (block : List Byte) : Answer (List PixelIdx) :=
  if block.length % Config.TILE_BYTES ≠ 0 then
    .raised .malformedTile (.num (block.length % Config.TILE_BYTES))
  else .value (decodeTiles block)

/-- PIX, issued on its own: total, accepted in every phase (R100). -/
def execPix (w : RowWord) (c : Column) (s : State) : Outcome := handOver (.index (pix w c)) s

/-- ROWDEC, issued on its own: total, accepted in every phase (R101). -/
def execRowdec (low high : Byte) (s : State) : Outcome := handOver (.indices (rowdec low high)) s

/-- TDEC, issued on its own: its operand is exactly 16 bytes (R102). -/
def execTdec (tile : List Byte) (s : State) : Outcome :=
  if tile.length = Config.TILE_BYTES then handOver (.indices (tdec tile)) s
  else .refused (.notATile tile.length)

/-- PTDEC, issued on its own (R103): the indices or the error (log 12); it can raise, so that ERROR
does not accept it (R169). -/
def execPtdec (block : List Byte) (s : State) : Outcome :=
  notIn .error "PTDEC" s (onItsOwn s (ptdec block) fun idx => handOver (.indices idx) s)

end Sys2Proof.Machine
end

