-- ==== Sys2Proof/Machine/Flags.lean ====
section
/-!
DEFINITION. The one flag of the block, LENW (spec/10_state.md R24).
-/
namespace Sys2Proof.Machine

/-- LENW: 1 if the length is not the canonical 4096, else 0 (R24, R144). -/
def lenwOf (len : Nat) : Bool := decide (len ≠ Config.CANON_LEN)

end Sys2Proof.Machine
end

