-- ==== Sys2Proof/Machine/Sequencer.lean ====
section
/-!
DEFINITION. The host operations and the run (spec/45_sequencer_and_host.md): H_RESET, H_SETPAL,
H_LOADB, H_LOAD, H_START, RUN, STEP, H_STATUS, H_READ.
-/
namespace Sys2Proof.Machine

/-- Every register at its reset value (R140, R36); the parameters stay (R181), the operations HOST
has issued stay, and a new draw of free values begins (logs 4, 16). -/
def State.resetBlock (s : State) : State :=
  { State.reset with cfg := s.cfg, draws := s.draws + 1, queue := s.queue }

/-- H_RESET: accepted in every phase but RUN (R140). -/
def execHReset (s : State) : Outcome := notIn .run "H_RESET" s (.next s.resetBlock)

/-- H_SETPAL (R141): all four registers at once, or none. -/
def execHSetpal (text : Text) (s : State) : Outcome :=
  onlyIn .idle "H_SETPAL" s
    (conclude s (palparse s.cfg text) fun p => handOver .nothing (s.setPal p))

/-- May a byte block of this length be loaded (R142)? -/
def withinCapacity (lenMax : Option Nat) (len : Nat) : Bool :=
  match lenMax with
  | none => true
  | some m => decide (len ≤ m)

/-- The load of H_LOADB and H_LOAD (R142). -/
def loadBlock (bytes : List Byte) (s : State) : Outcome :=
  if withinCapacity s.cfg.lenMax bytes.length then
    handOver .nothing (s.setBlock (Memory.ofBytes bytes) bytes.length)
  else .refused (.overCapacity bytes.length)

/-- H_LOADB (R142). -/
def execHLoadb (bytes : List Byte) (s : State) : Outcome :=
  onlyIn .idle "H_LOADB" s (loadBlock bytes s)

/-- H_LOAD (R143). -/
def execHLoad (text : Text) (s : State) : Outcome :=
  onlyIn .idle "H_LOAD" s (conclude s (hexparse s.cfg.ws text) fun bytes => loadBlock bytes s)

/-- The three checks of H_START in their order, after LENW is written (R144, R145). -/
def startRun (s : State) : Outcome :=
  if s.len % Config.TILE_BYTES ≠ 0 then
    raiseError .malformedTile (.num (s.len % Config.TILE_BYTES)) s
  else if s.cfg.strictLen = true ∧ s.len ≠ Config.CANON_LEN then
    raiseError .formatViolation (.num s.len) s
  else if s.tw * s.th < s.nt then raiseError .rasterOverflow (.num s.nt) s
  else handOver .nothing ((s.setK 0).setPhase .run)

/-- H_START (R144). -/
def execHStart (s : State) : Outcome :=
  onlyIn .idle "H_START" s (startRun (s.setLenw (lenwOf s.len)))

/-- RUN (R146): decode, map and compose the whole block; K counts the pixels; PHASE is DONE. -/
def execRun (s : State) : Outcome :=
  onlyIn .run "RUN" s
    (conclude s (ptdec s.block) fun idx =>
      conclude s (s.compose (s.palmapseq idx)) fun r =>
        handOver .nothing (((s.setRast r).setK (s.palmapseq idx).length).setPhase .done))

/-- One pixel step: decode, map and place the pixel at flat position K (R147). -/
def pixelStep (s : State) : Outcome :=
  match s.ptRead (lowAddress s.k) with
  | none => .fault (.noSuchAddress (lowAddress s.k))
  | some low =>
    match s.ptRead (highAddress s.k) with
    | none => .fault (.noSuchAddress (highAddress s.k))
    | some high =>
      conclude s (s.place s.k) fun xy =>
        handOver .nothing
          ((s.setRast (s.rast.write xy (s.palmap (pix (ilv low high) (columnOf s.k))))).setK
            (s.k + 1))

/-- STEP (R147): enabled in RUN alone; the completing step where every pixel is placed. -/
def execStep (s : State) : Outcome :=
  onlyIn .run "STEP" s
    (if s.k = Config.TILE_PIXELS * s.nt then handOver .nothing (s.setPhase .done) else pixelStep s)

/-- What H_STATUS hands over (R149): ERRINFO is arbitrary while ERR = 0 (R26), LEN and K are
arbitrary in ERROR (R168). -/
def State.status (s : State) : Status where
  phase := s.phase
  lenw := s.lenw
  err := s.err
  errinfo := if s.err = 0#3 then Config.freeErrInfo s.draws else s.errinfo
  len := if s.phase = .error then Config.freeLen s.draws else s.len
  k := if s.phase = .error then Config.freeK s.draws else s.k

/-- H_STATUS: accepted in every phase (R149); only the count of draws moves on (log 4). -/
def execHStatus (s : State) : Outcome := handOver (.status s.status) s.drawn

/-- H_READ: accepted in DONE alone (R150); only the count of draws moves on (logs 4, 8). -/
def execHRead (s : State) : Outcome :=
  onlyIn .done "H_READ" s (handOver (.raster (s.rast.view s.draws)) s.drawn)

end Sys2Proof.Machine
end

