-- ==== Sys2Proof/Machine/Dispatch.lean ====
section
/-!
DEFINITION. One arm per operation of the map of spec/30_encoding.md rule R71.
-/
namespace Sys2Proof.Machine

def exec (i : Instr) (s : State) : Host.Outcome State Fault Refusal :=
  match i with
  | .tokenize text => Sys2Proof.Machine.execTokenize text s
  | .hextok tok => Sys2Proof.Machine.execHextok tok s
  | .hexparse text => Sys2Proof.Machine.execHexparse text s
  | .ilv low high => Sys2Proof.Machine.execIlv low high s
  | .pix w c => Sys2Proof.Machine.execPix w c s
  | .rowdec low high => Sys2Proof.Machine.execRowdec low high s
  | .tdec tile => Sys2Proof.Machine.execTdec tile s
  | .ptdec block => Sys2Proof.Machine.execPtdec block s
  | .paltok tok => Sys2Proof.Machine.execPaltok tok s
  | .palparse text => Sys2Proof.Machine.execPalparse text s
  | .palmap n => Sys2Proof.Machine.execPalmap n s
  | .palmapseq idx => Sys2Proof.Machine.execPalmapseq idx s
  | .place k => Sys2Proof.Machine.execPlace k s
  | .compose rgb => Sys2Proof.Machine.execCompose rgb s
  | .hReset => Sys2Proof.Machine.execHReset s
  | .hSetpal text => Sys2Proof.Machine.execHSetpal text s
  | .hLoadb bytes => Sys2Proof.Machine.execHLoadb bytes s
  | .hLoad text => Sys2Proof.Machine.execHLoad text s
  | .hStart => Sys2Proof.Machine.execHStart s
  | .run => Sys2Proof.Machine.execRun s
  | .step => Sys2Proof.Machine.execStep s
  | .hStatus => Sys2Proof.Machine.execHStatus s
  | .hRead => Sys2Proof.Machine.execHRead s

end Sys2Proof.Machine
end

