-- ==== Sys2Proof/Machine/Step.lean ====
section
/-!
DEFINITION. One step of the machine: the next operation is carried out (log 1).
-/
namespace Sys2Proof.Machine

/-- The next operation of the queue; where the queue is empty, CORE's STEP in RUN (R147), and
otherwise nothing happens: the block waits for HOST (R182, R189). -/
def step (s : State) : Host.Outcome State Fault Refusal :=
  match fetch s with
  | .operation i s' => exec i s'
  | .waiting => .next s
  | .undecodable e => .refused (.undecodable e)

/-- The state with the operation of a table word first in the queue. -/
def State.withFetchWord (s : State) (nbits w : Nat) : State := s.issue (tableOperationBytes nbits w)

end Sys2Proof.Machine
end

