-- ==== Sys2Proof/Safety.lean ====
section
/-!
DEFINITION. What counts as an ended, a successful and a failed run (spec/45 R151), the legal
transitions of PHASE (spec/10 R23), and the invariant of the machine.
-/
namespace Sys2Proof.Safety

open Sys2Proof.Machine

/-- A run has ended (R151). -/
abbrev Ended (s : State) : Prop := s.phase = .done ∨ s.phase = .error

/-- The only final, successful state: HOST may read the raster (R151). -/
abbrev Successful (s : State) : Prop := s.phase = .done

/-- The fault state: nothing of the result may be read (R151). -/
abbrev Failed (s : State) : Prop := s.phase = .error

/-- CORE owns the state, or the run is over and its result stands. -/
abbrev Started (s : State) : Prop := s.phase = .run ∨ s.phase = .done

/-- The changes of PHASE that R23 lists, an unchanged PHASE among them; H_RESET has its own. -/
def legalTransition : Phase → Phase → Bool
  | .idle, .idle => true
  | .idle, .run => true
  | .idle, .error => true
  | .run, .run => true
  | .run, .done => true
  | .done, .done => true
  | .error, .error => true
  | _, _ => false

/-- The error code and the offending value fit each other (R160 to R165). -/
def recorded : BitVec 3 → ErrInfo → Bool
  | 1#3, .token _ => true
  | 2#3, .token _ => true
  | 3#3, .num n => decide (1 ≤ n ∧ n ≤ 15)
  | 4#3, .num n => decide (257 ≤ n)
  | 6#3, .num n => decide (n % 16 = 0 ∧ n ≠ 4096)
  | _, _ => false

/-- The invariant of the machine: what holds at reset and after every step. -/
structure Invariant (s : State) : Prop where
  /-- PT keeps its canonical form (R30). -/
  pt_wf : s.pt.wf s.len = true
  /-- RAST keeps its canonical form (R32). -/
  rast_wf : s.rast.wf = true
  /-- LEN is within LEN_MAX (R27, R142). -/
  len_max : withinCapacity s.cfg.lenMax s.len = true
  /-- `ERR ≠ 0` exactly when `PHASE = ERROR` (R25). -/
  err_iff : s.err ≠ 0#3 ↔ s.phase = .error
  /-- A recorded error has its kind of offending value (R160). -/
  err_info : s.err ≠ 0#3 → recorded s.err s.errinfo = true
  /-- Only a whole number of tiles that fits the grid is ever run (R145). -/
  length_ok : Started s → s.len % 16 = 0 ∧ s.nt ≤ s.tw * s.th
  /-- Under STRICT_LEN only the canonical length is ever run (R145). -/
  strict_ok : Started s → s.cfg.strictLen = true → s.len = 4096
  /-- LENW tells whether the length is canonical once the run has started (R24). -/
  lenw_ok : Started s → s.lenw = lenwOf s.len
  /-- LENW is 0 until H_START writes it (R24). -/
  lenw_idle : s.phase = .idle → s.lenw = false
  /-- K counts the pixels placed (R22). -/
  k_run : s.phase = .run → s.k ≤ 64 * s.nt
  /-- Every pixel is placed when the run is done (R147). -/
  k_done : s.phase = .done → s.k = 64 * s.nt
  /-- K is 0 before a run (R22, R144). -/
  k_idle : ¬ Started s → s.k = 0
  /-- No entry of RAST is written before a run (R32, R172). -/
  rast_idle : ¬ Started s → s.rast = []

end Sys2Proof.Safety
end

