-- ==== Sys2Proof/Certificates/Slice0/Obligations.lean ====
section
/-!
DEFINITION. The statements for the provers, about the machine of the spec's numbered rules, and the
words they are written in (namespace Sys2Proof.Claims), which are taken from the spec and not from
the meanings.
-/

open Sys2Proof Sys2Proof.Machine Sys2Proof.Safety

namespace Sys2Proof.Claims

/-! Texts and tokens (R75, R80, R82, R111). -/

/-- The decimal digits and their values. -/
def decDigits : List (Char × Nat) :=
  [('0', 0), ('1', 1), ('2', 2), ('3', 3), ('4', 4), ('5', 5), ('6', 6), ('7', 7), ('8', 8),
   ('9', 9)]

/-- The hexadecimal digits and their values, upper and lower case. -/
def hexDigits : List (Char × Nat) :=
  decDigits ++
  [('a', 10), ('b', 11), ('c', 12), ('d', 13), ('e', 14), ('f', 15),
   ('A', 10), ('B', 11), ('C', 12), ('D', 13), ('E', 14), ('F', 15)]

/-- A digit string of one digit or more spells a number in a base, first digit most significant. -/
def Spells (table : List (Char × Nat)) (base : Nat) (str : List Char) (v : Nat) : Prop :=
  str ≠ [] ∧ ∃ ds : List Nat,
    List.Forall₂ (fun ch d => (ch, d) ∈ table) str ds ∧ v = Nat.ofDigits base ds.reverse

/-- The token is one or two hexadecimal digits, and this is the byte they spell (R82). -/
def HexTokenSpells (tok : Token) (b : Byte) : Prop :=
  (∃ d v, (d, v) ∈ hexDigits ∧ tok = [d] ∧ b.toNat = v) ∨
  (∃ d1 v1 d0 v0, (d1, v1) ∈ hexDigits ∧ (d0, v0) ∈ hexDigits ∧ tok = [d1, d0] ∧
    b.toNat = 16 * v1 + v0)

/-- The token is a decimal integer, or a hexadecimal integer behind `0x` or `0X`, and this is its
value (R111). -/
def PalTokenSpells (tok : Token) (v : Nat) : Prop :=
  Spells decDigits 10 tok v ∨
  ∃ x rest, (x = 'x' ∨ x = 'X') ∧ tok = '0' :: x :: rest ∧ Spells hexDigits 16 rest v

/-- The token is a palette token whose value a palette register can hold (R112). -/
def PalTokenFits (tok : Token) (v : Nat) : Prop := PalTokenSpells tok v ∧ v < 64

/-- Whitespace only. -/
def Blank (ws : List Char) (t : Text) : Prop := ∀ ch ∈ t, ch ∈ ws

/-- Not empty, and no whitespace. -/
def Solid (ws : List Char) (t : Text) : Prop := t ≠ [] ∧ ∀ ch ∈ t, ch ∉ ws

/-- The tokens of a text are its maximal runs of characters that are not whitespace: the text is
whitespace and tokens in turn, with whitespace between any two tokens (R80). -/
def TokensOf (ws : List Char) (text : Text) (toks : List Token) : Prop :=
  ∃ (pieces : List (Text × Token)) (trail : Text),
    (∀ p ∈ pieces, Blank ws p.1 ∧ Solid ws p.2) ∧ (∀ p ∈ pieces.tail, p.1 ≠ []) ∧
    Blank ws trail ∧ text = pieces.flatMap (fun p => p.1 ++ p.2) ++ trail ∧
    toks = pieces.map (fun p => p.2)

/-- No character above U+007F (R81). -/
def Ascii (text : Text) : Prop := ∀ ch ∈ text, ch.toNat ≤ 0x7F

/-! Pixels (R108, R117, R125). -/

/-- The pixel index of flat position `i`, from the two bytes of PT that hold its row (R108). -/
def indexAt (s : State) (i : Nat) : PixelIdx :=
  BitVec.ofNat 2
    (2 * ((s.pt.peek (16 * (i / 64) + 8 + i % 64 / 8)).getLsbD (7 - i % 8)).toNat +
      ((s.pt.peek (16 * (i / 64) + i % 64 / 8)).getLsbD (7 - i % 8)).toNat)

/-- The colour of flat position `i`: `MPAL[PAL[IDX[i]]]` (R146). -/
def colourAt (s : State) (i : Nat) : RGB := s.mpalRead (s.palRead (indexAt s i))

/-- The raster coordinate of flat position `i` in the grid of 16 x 16 tiles (R125). -/
def coordAt (i : Nat) : Coord := ⟨i / 64 % 16 * 8 + i % 64 % 8, i / 64 / 16 * 8 + i % 64 / 8⟩

/-- What an accepted H_START leaves: CORE owns whole tiles that fit the grid, no pixel placed. -/
def AtStart (s : State) : Prop := s.phase = .run ∧ s.k = 0 ∧ s.len % 16 = 0 ∧ s.len / 16 ≤ 256

/-! Runs. -/

/-- STEP, so many times (R147). -/
def coreSteps : Nat → State → Outcome
  | 0, s => .next s
  | n + 1, s =>
    match exec .step s with
    | .next t => coreSteps n t
    | o => o

/-- So many steps of the machine. -/
def machineSteps : Nat → State → Outcome
  | 0, s => .next s
  | n + 1, s =>
    match step s with
    | .next t => machineSteps n t
    | o => o

/-- HOST issues operations in order and stops at the first error (R169). -/
def issueAll : List Instr → State → Outcome
  | [], s => .next s
  | i :: rest, s =>
    match exec i s with
    | .next t => if t.phase = .error then .next t else issueAll rest t
    | o => o

/-- The whole block as one function of the two texts (R154): the entries of the raster and the
warning, or the error. The capacity check of R142 stands where the bytes are loaded. -/
def pipeline (cfg : Config.Params) (paltext pattext : Text) :
    Answer (List (Coord × RGB) × Bool) :=
  (palparse cfg paltext).andThen fun pal =>
    (hexparse cfg.ws pattext).andThen fun bytes =>
      if !withinCapacity cfg.lenMax bytes.length then .refused (.overCapacity bytes.length)
      else if bytes.length % 16 ≠ 0 then .raised .malformedTile (.num (bytes.length % 16))
      else if cfg.strictLen = true ∧ bytes.length ≠ 4096 then
        .raised .formatViolation (.num bytes.length)
      else if 16 * 16 < bytes.length / 16 then
        .raised .rasterOverflow (.num (bytes.length / 16))
      else
        (ptdec bytes).andThen fun idx =>
          .value (idx.zipIdx.map fun p =>
            (coordAt p.2, cfg.mpal[(pal[p.1.toNat]'(p.1.isLt)).toNat]'((pal[p.1.toNat]'(p.1.isLt)).isLt)),
            decide (bytes.length ≠ 4096))

/-- The rows of the phase table of R153: an operation's mnemonic and the phases that accept it. -/
def phaseTable : Instr → Option (String × List Phase)
  | .hReset => some ("H_RESET", [.idle, .done, .error])
  | .hSetpal _ => some ("H_SETPAL", [.idle])
  | .hLoadb _ => some ("H_LOADB", [.idle])
  | .hLoad _ => some ("H_LOAD", [.idle])
  | .hStart => some ("H_START", [.idle])
  | .hStatus => some ("H_STATUS", [.idle, .run, .done, .error])
  | .hRead => some ("H_READ", [.done])
  | .step => some ("STEP", [.run])
  | _ => none

/-- The stage operations that write no register and no memory of the block: every row of R71 that
is neither a host operation nor RUN, STEP or COMPOSE. -/
def valueOnly : Instr → Bool
  | .tokenize _ | .hextok _ | .hexparse _ | .ilv _ _ | .pix _ _ | .rowdec _ _ | .tdec _
  | .ptdec _ | .paltok _ | .palparse _ | .palmap _ | .palmapseq _ | .place _ => true
  | _ => false

/-- What ERROR accepts besides H_RESET: H_STATUS, and the stage operations that neither raise nor
read a register (R153, R168, R170; log 13). -/
def acceptedInError : Instr → Bool
  | .hStatus | .tokenize _ | .ilv _ _ | .pix _ _ | .rowdec _ _ | .tdec _ => true
  | _ => false

end Sys2Proof.Claims

open Sys2Proof.Claims

/-! ## Decoding and the step -/

/-- The decoder reads back every well-formed operation and leaves what follows it.
The serial form is the model's own (log 2). -/
def Obligations.DecodeEncodeRoundTrip : Prop :=
  ∀ (i : Instr) (rest : List Byte), wellFormed i = true → decode (encode i ++ rest) = .ok (i, rest)

/-- The decoder accepts nothing but serial forms of well-formed operations (log 2). -/
def Obligations.DecodeAcceptsOnlyEncodings : Prop :=
  ∀ (bs : List Byte) (i : Instr) (rest : List Byte), decode bs = .ok (i, rest) →
    wellFormed i = true ∧ bs = encode i ++ rest

/-- A few serial forms written out by hand: ILV 0x33 0x55, PIX 0x2727 3, PLACE 1088, H_START, and
H_SETPAL "7" (log 2). -/
def Obligations.SampleFormsDecode : Prop :=
  decode [3#8, 0x33#8, 0x55#8] = .ok (.ilv 0x33#8 0x55#8, []) ∧
  decode [4#8, 0x27#8, 0x27#8, 3#8] = .ok (.pix 0x2727#16 3#3, []) ∧
  decode [12#8, 0x40#8, 0x04#8, 0#8, 0#8] = .ok (.place 1088, []) ∧
  decode [18#8] = .ok (.hStart, []) ∧
  decode [15#8, 1#8, 0x37#8, 0#8, 0#8, 0#8] = .ok (.hSetpal ['7'], [])

/-- A step carries out the operation the queue begins with, on the state without it (log 1). -/
def Obligations.StepRunsDecodedOperation : Prop :=
  ∀ (s : State) (i : Instr) (rest : List Byte), decode s.queue = .ok (i, rest) →
    step s = exec i { s with queue := rest }

/-- With nothing queued, CORE steps while PHASE = RUN; in every other phase nothing happens
(R147, R182; log 1). -/
def Obligations.EmptyQueueStep : Prop :=
  ∀ s : State, s.queue = [] →
    (s.phase = .run → step s = exec .step s) ∧ (s.phase ≠ .run → step s = .next s)

/-- The operation of a table word, put first in the queue, is what the next step carries out, on the
state as it was. The word's form is the model's own (log 2). That the operation is carried out
before those already queued is the model's choice, on which the spec is silent (log 1). -/
def Obligations.TableWordRunsNext : Prop :=
  ∀ (s : State) (nbits w : Nat) (i : Instr), decodeTableWord nbits w = some i →
    step (s.withFetchWord nbits w) = exec i s

/-! ## Reset and the invariant -/

/-- R180: what reset leaves, at power-on and by H_RESET; ERRINFO and the raster's entries read as
free values (logs 8, 10). -/
def Obligations.ResetState : Prop :=
  State.reset.pal = #v[0#6, 0#6, 0#6, 0#6] ∧ State.reset.pt = [] ∧ State.reset.len = 0 ∧
  State.reset.k = 0 ∧ State.reset.phase = .idle ∧ State.reset.lenw = false ∧
  State.reset.err = 0#3 ∧ State.reset.status.errinfo = Config.freeErrInfo State.reset.draws ∧
  (∀ d i, State.reset.rast.entry d i = Config.freePixel d i) ∧
  State.reset.cfg.mpal = Config.mpal ∧ State.reset.tw = 16 ∧ State.reset.th = 16 ∧
  ∀ s t : State, exec .hReset s = .next t →
    t.pal = State.reset.pal ∧ t.pt = State.reset.pt ∧ t.len = State.reset.len ∧
    t.k = State.reset.k ∧ t.phase = State.reset.phase ∧ t.lenw = State.reset.lenw ∧
    t.err = State.reset.err ∧ t.status.errinfo = Config.freeErrInfo t.draws ∧
    (∀ d i, t.rast.entry d i = Config.freePixel d i) ∧ t.cfg.mpal = s.cfg.mpal ∧
    t.tw = 16 ∧ t.th = 16

/-- The invariant of the machine holds at reset. -/
def Obligations.ResetSatisfiesInvariant : Prop := Invariant State.reset

/-- Every step keeps the invariant of the machine, from every state that meets it. What it says of PT,
LEN, K and RAST in ERROR rests on trap entry leaving them, the model's choice (log 11). -/
def Obligations.StepKeepsInvariant : Prop :=
  ∀ s t : State, Invariant s → step s = .next t → Invariant t

/-! ## Hex-Text Parser -/

/-- R80: the tokens are the maximal runs of characters that are not whitespace; every text has such
tokens. That the operation on its own hands them over in every phase is the model's choice
(log 13). -/
def Obligations.TokenizeHandsOverTokens : Prop :=
  (∀ (s : State) (text : Text) (toks : List Token), Ascii text →
    TokensOf s.cfg.ws text toks → exec (.tokenize text) s = .next { s with out := .tokens toks }) ∧
  ∀ (ws : List Char) (text : Text), ∃ toks, TokensOf ws text toks

/-- R82: the byte of a token of one or two hexadecimal digits, or for every other token ParseError with
the token. That the operation on its own hands the error over and enters no other phase, and which
phases accept it, is the model's reading (logs 12, 13). -/
def Obligations.HexTokenToByte : Prop :=
  ∀ (s : State) (tok : Token),
    (∀ b, HexTokenSpells tok b → s.phase ≠ .error →
      exec (.hextok tok) s = .next { s with out := .byte b }) ∧
    ((∀ b, ¬ HexTokenSpells tok b) → s.phase ≠ .error →
      exec (.hextok tok) s = .next { s with out := .error .parseError (.token tok) })

/-- R83, R85: one byte per token in token order; the first invalid token is the one reported. That the
operation on its own hands the error over and enters no other phase, and which phases accept it, is
the model's reading (logs 12, 13). -/
def Obligations.HexTextToBytes : Prop :=
  ∀ (s : State) (text : Text) (toks : List Token), Ascii text → TokensOf s.cfg.ws text toks →
    (∀ bs, List.Forall₂ HexTokenSpells toks bs → s.phase ≠ .error →
      exec (.hexparse text) s = .next { s with out := .bytes bs }) ∧
    (∀ good bs bad rest, toks = good ++ bad :: rest → List.Forall₂ HexTokenSpells good bs →
      (∀ b, ¬ HexTokenSpells bad b) → s.phase ≠ .error →
      exec (.hexparse text) s = .next { s with out := .error .parseError (.token bad) })

/-- R81: a text with a character above U+007F has no meaning, for every operation that takes a text,
where the phase accepts the operation. Which phases accept the stage operations on their own is
the model's choice (log 13). -/
def Obligations.NonAsciiTextIsRefused : Prop :=
  ∀ (s : State) (text : Text), ¬ Ascii text →
    exec (.tokenize text) s = .refused .nonAscii ∧
    (s.phase ≠ .error → exec (.hexparse text) s = .refused .nonAscii ∧
      exec (.palparse text) s = .refused .nonAscii) ∧
    (s.phase = .idle → exec (.hLoad text) s = .refused .nonAscii ∧
      exec (.hSetpal text) s = .refused .nonAscii)

/-! ## Bitplane Interleaver -/

/-- R90: for every column the two bits of the word, from bit `7 - c` of each byte. That ILV on its
own is carried out in every phase is the model's choice (log 13). -/
def Obligations.InterleaverBits : Prop :=
  ∀ (s : State) (low high : Byte), ∃ w : RowWord,
    exec (.ilv low high) s = .next { s with out := .word w } ∧
    ∀ c, c < 8 → w.getLsbD (15 - 2 * c) = high.getLsbD (7 - c) ∧
      w.getLsbD (14 - 2 * c) = low.getLsbD (7 - c)

/-- R92 (b): the word as a sum over the source bits. That ILV on its own is carried out in every
phase is the model's choice (log 13). -/
def Obligations.InterleaverSum : Prop :=
  ∀ (s : State) (low high : Byte), ∃ w : RowWord,
    exec (.ilv low high) s = .next { s with out := .word w } ∧
    w.toNat = ((List.range 8).map fun j =>
      (high.getLsbD j).toNat * 2 ^ (2 * j + 1) + (low.getLsbD j).toNat * 2 ^ (2 * j)).sum

/-- R93: every 16-bit word is the interleaving of exactly one pair of bytes. That ILV on its own is
carried out in every phase is the model's choice (log 13). -/
def Obligations.InterleaverBijective : Prop :=
  ∀ (s : State) (w : RowWord),
    ∃! p : Byte × Byte, exec (.ilv p.1 p.2) s = .next { s with out := .word w }

/-! ## Pattern Decoder -/

/-- R100: `PIX(W, c) = (W >> (14 - 2c)) & 3`. That PIX on its own is carried out in every phase is
the model's choice (log 13). -/
def Obligations.PixExtractsPair : Prop :=
  ∀ (s : State) (w : RowWord) (c : Column), ∃ n : PixelIdx,
    exec (.pix w c) s = .next { s with out := .index n } ∧
    n.toNat = w.toNat / 2 ^ (14 - 2 * c.toNat) % 4

/-- R101: eight indices, column 0 first; each is PIX of the interleaved word, and each is the
high-plane bit and the low-plane bit of its column. That ROWDEC on its own is carried out in every
phase is the model's choice (log 13). -/
def Obligations.RowDecodesToIndices : Prop :=
  ∀ (s : State) (low high : Byte), ∃ ns : List PixelIdx,
    exec (.rowdec low high) s = .next { s with out := .indices ns } ∧ ns.length = 8 ∧
    ∀ c : Column, ∃ n, ns[c.toNat]? = some n ∧
      (∀ w, exec (.ilv low high) s = .next { s with out := .word w } →
        exec (.pix w c) s = .next { s with out := .index n }) ∧
      n.toNat = 2 * (high.getLsbD (7 - c.toNat)).toNat + (low.getLsbD (7 - c.toNat)).toNat

/-- R102: 64 indices; row `r` is ROWDEC of bytes `r` and `8 + r`. That TDEC on its own is carried out
in every phase is the model's choice (log 13). -/
def Obligations.TileDecodesToIndices : Prop :=
  ∀ (s : State) (tile : List Byte), tile.length = 16 → ∃ ns : List PixelIdx,
    exec (.tdec tile) s = .next { s with out := .indices ns } ∧ ns.length = 64 ∧
    ∀ r, r < 8 → ∀ low high row, tile[r]? = some low → tile[8 + r]? = some high →
      exec (.rowdec low high) s = .next { s with out := .indices row } →
      ∀ c, c < 8 → ns[8 * r + c]? = row[c]?

/-- R103: 64 indices per tile, tile 0 first; tile `t` is TDEC of bytes `16t` to `16t + 15`. That
PTDEC on its own is carried out in every phase but ERROR is the model's choice (log 13). -/
def Obligations.BlockDecodesToIndices : Prop :=
  ∀ (s : State) (block : List Byte), block.length % 16 = 0 → s.phase ≠ .error →
    ∃ ns : List PixelIdx,
      exec (.ptdec block) s = .next { s with out := .indices ns } ∧
      ns.length = 64 * (block.length / 16) ∧
      ∀ t, t < block.length / 16 → ∀ tile,
        exec (.tdec ((block.drop (16 * t)).take 16)) s = .next { s with out := .indices tile } →
        ∀ k, k < 64 → ns[64 * t + k]? = tile[k]?

/-- R104, on its own: for a ragged block no indices but MalformedTile with the number of trailing bytes.
That the operation on its own hands the error over and enters no other phase, and which phases
accept it, is the model's reading (logs 12, 13). -/
def Obligations.RaggedBlockRaises : Prop :=
  ∀ (s : State) (block : List Byte), block.length % 16 ≠ 0 → s.phase ≠ .error →
    exec (.ptdec block) s =
      .next { s with out := .error .malformedTile (.num (block.length % 16)) }

/-- R106: the decoder keeps the order and is tile-local. -/
def Obligations.DecoderIsTileLocal : Prop :=
  (∀ (s : State) (a b : List Byte) (ia ib : List PixelIdx),
    a.length % 16 = 0 → b.length % 16 = 0 →
    exec (.ptdec a) s = .next { s with out := .indices ia } →
    exec (.ptdec b) s = .next { s with out := .indices ib } →
    exec (.ptdec (a ++ b)) s = .next { s with out := .indices (ia ++ ib) }) ∧
  ∀ (s : State) (a b : List Byte) (ia ib : List PixelIdx) (t : Nat),
    exec (.ptdec a) s = .next { s with out := .indices ia } →
    exec (.ptdec b) s = .next { s with out := .indices ib } →
    16 * t + 16 ≤ a.length → 16 * t + 16 ≤ b.length →
    (∀ j, j < 16 → a[16 * t + j]? = b[16 * t + j]?) →
    ∀ k, k < 64 → ia[64 * t + k]? = ib[64 * t + k]?

/-! ## Palette configuration and Palette Mapper -/

/-- R111: the number of a palette token, or for every other token InvalidPaletteSlot with the token.
That the operation on its own hands the error over and enters no other phase, and which phases
accept it, is the model's reading (logs 12, 13). -/
def Obligations.PaletteTokenToNumber : Prop :=
  ∀ (s : State) (tok : Token),
    (∀ v, PalTokenSpells tok v → s.phase ≠ .error →
      exec (.paltok tok) s = .next { s with out := .nat v }) ∧
    ((∀ v, ¬ PalTokenSpells tok v) → s.phase ≠ .error →
      exec (.paltok tok) s = .next { s with out := .error .invalidPaletteSlot (.token tok) })

/-- R112, R113: up to four tokens give four values, missing ones 0; the first token that is
unparsable or at least 64 is the one reported. That the operation on its own hands the error over
and enters no other phase, and which phases accept it, is the model's reading (logs 12, 13). -/
def Obligations.PaletteTextToValues : Prop :=
  ∀ (s : State) (text : Text) (toks : List Token), Ascii text → TokensOf s.cfg.ws text toks →
    toks.length ≤ 4 →
    (∀ vs, List.Forall₂ PalTokenFits toks vs → s.phase ≠ .error →
      ∃ p : Vector PalValue 4,
        exec (.palparse text) s = .next { s with out := .palette p } ∧
        ∀ k (h : k < 4), p[k].toNat = vs.getD k 0) ∧
    (∀ good vs bad rest, toks = good ++ bad :: rest → List.Forall₂ PalTokenFits good vs →
      (∀ v, ¬ PalTokenFits bad v) → s.phase ≠ .error →
      exec (.palparse text) s = .next { s with out := .error .invalidPaletteSlot (.token bad) })

/-- R114: more than four tokens, under each of the three policies. That the operation on its own hands
the error over and enters no other phase, and which phases accept it, is the model's reading (logs
12, 13). -/
def Obligations.ExtraPaletteTokens : Prop :=
  ∀ (s : State) (text : Text) (toks : List Token) (fifth : Token), Ascii text →
    TokensOf s.cfg.ws text toks → toks[4]? = some fifth →
    (s.cfg.palExtra = .refuse → s.phase ≠ .error →
      exec (.palparse text) s = .refused (.tooManyPaletteTokens toks.length)) ∧
    (s.cfg.palExtra = .ignore → s.phase ≠ .error →
      ∀ vs, List.Forall₂ PalTokenFits (toks.take 4) vs → ∃ p : Vector PalValue 4,
        exec (.palparse text) s = .next { s with out := .palette p } ∧
        ∀ k (h : k < 4), some p[k].toNat = vs[k]?) ∧
    (s.cfg.palExtra = .error → s.phase ≠ .error →
      ∀ vs, List.Forall₂ PalTokenFits (toks.take 4) vs →
        exec (.palparse text) s =
          .next { s with out := .error .invalidPaletteSlot (.token fifth) }) ∧
    (s.cfg.palExtra ≠ .refuse → s.phase ≠ .error →
      ∀ good vs bad rest, toks.take 4 = good ++ bad :: rest →
        List.Forall₂ PalTokenFits good vs → (∀ v, ¬ PalTokenFits bad v) →
        exec (.palparse text) s =
          .next { s with out := .error .invalidPaletteSlot (.token bad) })

/-- R117: two lookups, in RUN, where alone PAL and MPAL are read; every other phase refuses (R172,
log 13). -/
def Obligations.PalmapLooksUpColour : Prop :=
  ∀ (s : State) (n : PixelIdx),
    (s.phase = .run → ∃ v : RGB,
      exec (.palmap n) s = .next { s with out := .colour v } ∧
      s.cfg.mpal[(s.pal[n.toNat]'(n.isLt)).toNat]? = some v) ∧
    (s.phase ≠ .run → exec (.palmap n) s = .refused (.wrongPhase "PALMAP" s.phase))

/-- R118: a sequence of equal length, element by element PALMAP, order preserved, in RUN, where
alone PAL and MPAL are read; every other phase refuses (R172, log 13). -/
def Obligations.PalmapseqIsPointwise : Prop :=
  ∀ (s : State) (idx : List PixelIdx),
    (s.phase = .run → ∃ vs : List RGB,
      exec (.palmapseq idx) s = .next { s with out := .colours vs } ∧ vs.length = idx.length ∧
      ∀ (k : Nat) (n : PixelIdx) (v : RGB), idx[k]? = some n →
        exec (.palmap n) s = .next { s with out := .colour v } → vs[k]? = some v) ∧
    (s.phase ≠ .run → exec (.palmapseq idx) s = .refused (.wrongPhase "PALMAPSEQ" s.phase))

/-! ## Tile Compositor -/

/-- R125: the coordinate of a flat position of the grid, or outside it RasterOverflow, with an offending
value the spec does not state (log 14). That the operation on its own hands the error over and
enters no other phase, and which phases accept it, is the model's reading (logs 12, 13). -/
def Obligations.PlaceGivesCoordinate : Prop :=
  ∀ (s : State) (i : Nat),
    (i / 64 < 16 * 16 → s.phase ≠ .error →
      exec (.place i) s = .next { s with out := .coord (coordAt i) }) ∧
    (16 * 16 ≤ i / 64 → s.phase ≠ .error → ∃ n, 257 ≤ n ∧
      exec (.place i) s = .next { s with out := .error .rasterOverflow (.num n) })

/-- R128: for every coordinate of the raster the one flat position placed there. Which phases accept
the operation on its own is the model's choice (log 13). -/
def Obligations.PlaceHasInverse : Prop :=
  ∀ (s : State) (px py : Nat), px < 128 → py < 128 → s.phase ≠ .error →
    exec (.place (64 * (py / 8 * 16 + px / 8) + 8 * (py % 8) + px % 8)) s =
      .next { s with out := .coord ⟨px, py⟩ } ∧
    ∀ i, exec (.place i) s = .next { s with out := .coord ⟨px, py⟩ } →
      i = 64 * (py / 8 * 16 + px / 8) + 8 * (py % 8) + px % 8

/-- R127: in RUN every colour is written at the coordinate of its position, every other entry keeps
what it held, and nothing else changes. That RUN accepts it (log 13), at every K and for any number
of tiles the grid holds, whatever NT is (log 25), is the model's choice. -/
def Obligations.ComposeWritesPlacedEntries : Prop :=
  ∀ (s : State) (rgb : List RGB), s.phase = .run → rgb.length % 64 = 0 → rgb.length / 64 ≤ 256 →
    ∃ r : Raster,
      exec (.compose rgb) s = .next { s with rast := r, out := .nothing } ∧
      (∀ i v, rgb[i]? = some v → r.written (coordAt i) = some v) ∧
      ∀ xy : Coord, xy.InRaster → (∀ i, i < rgb.length → coordAt i ≠ xy) →
        r.written xy = s.rast.written xy

/-- R126: for more tiles than the grid holds RasterOverflow with the tile count, and nothing of RAST is
written. That the operation on its own hands the error over and enters no other phase, and which
phases accept it, is the model's reading (logs 12, 13). -/
def Obligations.ComposeOverflowRaises : Prop :=
  ∀ (s : State) (rgb : List RGB), s.phase ≠ .error → rgb.length % 64 = 0 →
    256 < rgb.length / 64 →
    exec (.compose rgb) s =
      .next { s with out := .error .rasterOverflow (.num (rgb.length / 64)) }

/-- R102, R133: a tile that is not 16 bytes, and a colour sequence whose length is no multiple of 64,
have no meaning. Which phases accept the operations on their own is the model's choice (log 13).
-/
def Obligations.OperandsOutsideFormatAreRefused : Prop :=
  (∀ (s : State) (tile : List Byte), tile.length ≠ 16 →
    exec (.tdec tile) s = .refused (.notATile tile.length)) ∧
  ∀ (s : State) (rgb : List RGB), rgb.length % 64 ≠ 0 → s.phase ≠ .error →
    exec (.compose rgb) s = .refused (.raggedColours rgb.length)

/-! ## Host operations -/

/-- R140: H_RESET puts every register at its reset value in IDLE, DONE and ERROR, RUN refuses it, and
nothing else leaves DONE or ERROR. ERRINFO and the raster's entries, unspecified by the rule, read
as free values (logs 10, 8). That the queue stays, and every parameter beside MPAL with it, is the
model's own clause (log 16). -/
def Obligations.ResetOperation : Prop :=
  (∀ s : State, s.phase ≠ .run → ∃ t : State, exec .hReset s = .next t ∧
    t.pal = #v[0#6, 0#6, 0#6, 0#6] ∧ t.len = 0 ∧ (∀ a, t.ptRead a = none) ∧ t.k = 0 ∧
    t.phase = .idle ∧ t.lenw = false ∧ t.err = 0#3 ∧
    t.status.errinfo = Config.freeErrInfo t.draws ∧
    (∀ d i, t.rast.entry d i = Config.freePixel d i) ∧ t.cfg = s.cfg ∧ t.queue = s.queue) ∧
  (∀ s : State, s.phase = .run → exec .hReset s = .refused (.wrongPhase "H_RESET" .run)) ∧
  ∀ (i : Instr) (s t : State), s.phase = .done ∨ s.phase = .error → exec i s = .next t →
    t.phase ≠ s.phase → i = .hReset

/-- R141: in IDLE the operation computes PALPARSE of the text; its four values go into the four
registers at once; a text that raises InvalidPaletteSlot enters ERROR with the offending token and
changes no palette register; every other phase refuses. That trap entry leaves PT, LEN, K and RAST as
well, on which no claim about the block may rest (R168), is the model's choice (log 11). -/
def Obligations.SetPaletteWritesRegisters : Prop :=
  ∀ (s : State) (text : Text),
    (s.phase = .idle →
      (∀ p, palparse s.cfg text = .value p →
        exec (.hSetpal text) s = .next { s with pal := p, out := .nothing }) ∧
      (∀ e info, palparse s.cfg text = .raised e info →
        exec (.hSetpal text) s =
          .next { s with err := 2#3, errinfo := info, phase := .error, out := .nothing }) ∧
      (∀ r, palparse s.cfg text = .refused r → exec (.hSetpal text) s = .refused r) ∧
      ∀ toks : List Token, Ascii text → TokensOf s.cfg.ws text toks → toks.length ≤ 4 →
        (∀ vs, List.Forall₂ PalTokenFits toks vs → ∃ p : Vector PalValue 4,
          exec (.hSetpal text) s = .next { s with pal := p, out := .nothing } ∧
          ∀ k (h : k < 4), p[k].toNat = vs.getD k 0) ∧
        ∀ good vs bad rest, toks = good ++ bad :: rest → List.Forall₂ PalTokenFits good vs →
          (∀ v, ¬ PalTokenFits bad v) →
          exec (.hSetpal text) s =
            .next { s with err := 2#3, errinfo := .token bad, phase := .error, out := .nothing }) ∧
    (s.phase ≠ .idle → exec (.hSetpal text) s = .refused (.wrongPhase "H_SETPAL" s.phase))

/-- R142: in IDLE, PT holds the bytes in order and LEN their number, whatever they were before; a
block longer than LEN_MAX is refused; every other phase refuses. -/
def Obligations.LoadBytesFillsPatternMemory : Prop :=
  ∀ (s : State) (bytes : List Byte),
    (s.phase = .idle → (∀ m, s.cfg.lenMax = some m → bytes.length ≤ m) → ∃ m : Memory,
      exec (.hLoadb bytes) s =
        .next { s with pt := m, len := bytes.length, out := .nothing } ∧
      ∀ a, State.ptRead { s with pt := m, len := bytes.length } a = bytes[a]?) ∧
    (s.phase = .idle → ∀ m, s.cfg.lenMax = some m → m < bytes.length →
      exec (.hLoadb bytes) s = .refused (.overCapacity bytes.length)) ∧
    (s.phase ≠ .idle → exec (.hLoadb bytes) s = .refused (.wrongPhase "H_LOADB" s.phase))

/-- R143: in IDLE a text loads the bytes HEXPARSE makes of it, as H_LOADB would; a text that raises
ParseError enters ERROR with the offending token; every other phase refuses. That trap entry leaves
PT and LEN, which the rule calls not observable, and PAL, K and RAST, is the model's choice (log
11). -/
def Obligations.LoadTextLoadsItsBytes : Prop :=
  ∀ (s : State) (text : Text),
    (s.phase = .idle →
      (∀ bs, hexparse s.cfg.ws text = .value bs →
        exec (.hLoad text) s = exec (.hLoadb bs) s) ∧
      (∀ e info, hexparse s.cfg.ws text = .raised e info →
        exec (.hLoad text) s =
          .next { s with err := 1#3, errinfo := info, phase := .error, out := .nothing }) ∧
      ∀ toks : List Token, Ascii text → TokensOf s.cfg.ws text toks →
        (∀ bs, List.Forall₂ HexTokenSpells toks bs →
          (∀ m, s.cfg.lenMax = some m → bs.length ≤ m) → ∃ m : Memory,
            exec (.hLoad text) s = .next { s with pt := m, len := bs.length, out := .nothing } ∧
            ∀ a, State.ptRead { s with pt := m, len := bs.length } a = bs[a]?) ∧
        ∀ good bs bad rest, toks = good ++ bad :: rest → List.Forall₂ HexTokenSpells good bs →
          (∀ b, ¬ HexTokenSpells bad b) →
          exec (.hLoad text) s =
            .next { s with err := 1#3, errinfo := .token bad, phase := .error, out := .nothing }) ∧
    (s.phase ≠ .idle → exec (.hLoad text) s = .refused (.wrongPhase "H_LOAD" s.phase))

/-- R144, R145: in IDLE, LENW is written, the three checks are made in their order, and if none
fails K is 0 and PHASE is RUN; every other phase refuses. That trap entry leaves PAL, PT, LEN, K and
RAST, on which no claim about the block may rest (R168), is the model's choice (log 11). -/
def Obligations.StartChecksAndStarts : Prop :=
  ∀ s : State,
    (s.phase = .idle → s.len % 16 ≠ 0 → exec .hStart s =
      .next { s with lenw := decide (s.len ≠ 4096), err := 3#3, errinfo := .num (s.len % 16),
                     phase := .error, out := .nothing }) ∧
    (s.phase = .idle → s.len % 16 = 0 → s.cfg.strictLen = true → s.len ≠ 4096 → exec .hStart s =
      .next { s with lenw := decide (s.len ≠ 4096), err := 6#3, errinfo := .num s.len,
                     phase := .error, out := .nothing }) ∧
    (s.phase = .idle → s.len % 16 = 0 → s.cfg.strictLen = false → 16 * 16 < s.len / 16 →
      exec .hStart s =
        .next { s with lenw := decide (s.len ≠ 4096), err := 4#3, errinfo := .num (s.len / 16),
                       phase := .error, out := .nothing }) ∧
    (s.phase = .idle → s.len % 16 = 0 → (s.cfg.strictLen = true → s.len = 4096) →
      s.len / 16 ≤ 16 * 16 → exec .hStart s =
        .next { s with lenw := decide (s.len ≠ 4096), k := 0, phase := .run, out := .nothing }) ∧
    (s.phase ≠ .idle → exec .hStart s = .refused (.wrongPhase "H_START" s.phase))

/-- R149: the status in every phase; ERRINFO is a free value while ERR = 0, LEN and K are free
values in ERROR; only the model's own fields change (logs 3, 4). -/
def Obligations.StatusReportsRegisters : Prop :=
  ∀ s : State, ∃ st : Status,
    exec .hStatus s = .next { s with out := .status st, draws := s.draws + 1 } ∧
    st.phase = s.phase ∧ st.lenw = s.lenw ∧ st.err = s.err ∧
    (s.err ≠ 0#3 → st.errinfo = s.errinfo) ∧
    (s.phase ≠ .error → st.len = s.len ∧ st.k = s.k) ∧
    (s.err = 0#3 → st.errinfo = Config.freeErrInfo s.draws) ∧
    (s.phase = .error → st.len = Config.freeLen s.draws ∧ st.k = Config.freeK s.draws)

/-- R150: the 16384 entries row by row in DONE; an entry no run has written is a free value; every
other phase refuses; only the model's own fields change (logs 3, 4, 8). -/
def Obligations.ReadHandsOverRaster : Prop :=
  ∀ s : State,
    (s.phase = .done → ∃ vs : List RGB,
      exec .hRead s = .next { s with out := .raster vs, draws := s.draws + 1 } ∧
      vs.length = 16384 ∧
      ∀ x y, x < 128 → y < 128 →
        (∀ v, s.rast.written ⟨x, y⟩ = some v → vs[y * 128 + x]? = some v) ∧
        (s.rast.written ⟨x, y⟩ = none →
          vs[y * 128 + x]? = some (Config.freePixel s.draws (y * 128 + x)))) ∧
    (s.phase ≠ .done → exec .hRead s = .refused (.wrongPhase "H_READ" s.phase))

/-! ## The run -/

/-- R147: enabled exactly in RUN; below `64 * NT` the pixel at K is decoded, mapped and placed and K
counts it; at `64 * NT` the run is done. -/
def Obligations.StepPlacesOnePixel : Prop :=
  ∀ s : State,
    (s.phase ≠ .run → exec .step s = .refused (.wrongPhase "STEP" s.phase)) ∧
    (s.phase = .run → s.k = 64 * (s.len / 16) →
      exec .step s = .next { s with phase := .done, out := .nothing }) ∧
    (s.phase = .run → s.k < 64 * (s.len / 16) → s.len / 16 ≤ 256 → ∃ r : Raster,
      exec .step s = .next { s with rast := r, k := s.k + 1, out := .nothing } ∧
      r.written (coordAt s.k) = some (colourAt s s.k) ∧
      ∀ xy : Coord, xy.InRaster → xy ≠ coordAt s.k → r.written xy = s.rast.written xy)

/-- R146: the final state of a run, entry by entry. -/
def Obligations.RunWritesEveryPixel : Prop :=
  ∀ s : State, AtStart s → ∃ r : Raster,
    exec .run s =
      .next { s with rast := r, k := 64 * (s.len / 16), phase := .done, out := .nothing } ∧
    (∀ i, i < 64 * (s.len / 16) → r.written (coordAt i) = some (colourAt s i)) ∧
    ∀ xy : Coord, xy.InRaster → (∀ i, i < 64 * (s.len / 16) → coordAt i ≠ xy) →
      r.written xy = s.rast.written xy

/-- R148: the steps of CORE reach exactly the final state of RUN. -/
def Obligations.StepsAgreeWithRun : Prop :=
  ∀ s : State, AtStart s → coreSteps (64 * (s.len / 16) + 1) s = exec .run s

/-- R189: after an accepted H_START, with nothing queued, the machine is in RUN for `64 * NT` steps
and in DONE after one more. -/
def Obligations.StartedRunTerminates : Prop :=
  ∀ s t : State, exec .hStart s = .next t → t.phase = .run → t.queue = [] →
    (∀ n, n ≤ 64 * (t.len / 16) →
      ∃ u : State, machineSteps n t = .next u ∧ u.phase = .run ∧ u.k = n) ∧
    ∃ u : State, machineSteps (64 * (t.len / 16) + 1) t = .next u ∧ u.phase = .done

/-- R154: HOST's four operations compute the pure function of the two texts. Where the function
refuses, it is for R81, R114 (a refused text) or R142 (LEN_MAX), which R154 leaves out. -/
def Obligations.HostProgramComputesPipeline : Prop :=
  ∀ (s : State) (paltext pattext : Text), s.phase = .idle →
    match pipeline s.cfg paltext pattext with
    | .value (entries, warning) => ∃ u : State,
        issueAll [.hSetpal paltext, .hLoad pattext, .hStart, .run] s = .next u ∧
        u.phase = .done ∧ u.err = s.err ∧ u.lenw = warning ∧
        (∀ e ∈ entries, u.rast.written e.1 = some e.2) ∧
        ∀ xy : Coord, xy.InRaster → (∀ e ∈ entries, e.1 ≠ xy) →
          u.rast.written xy = s.rast.written xy
    | .raised e info => ∃ u : State,
        issueAll [.hSetpal paltext, .hLoad pattext, .hStart, .run] s = .next u ∧
        u.phase = .error ∧ u.err = e.code ∧ u.errinfo = info
    | .refused r => issueAll [.hSetpal paltext, .hLoad pattext, .hStart, .run] s = .refused r

/-- R130: a run of 4096 bytes writes every entry of the raster, each from exactly one position. -/
def Obligations.CanonicalRunFillsRaster : Prop :=
  ∀ s t : State, AtStart s → s.len = 4096 → exec .run s = .next t →
    ∀ xy : Coord, xy.InRaster → ∃ i, i < 16384 ∧ coordAt i = xy ∧ (∀ j, coordAt j = xy → j = i) ∧
      t.rast.written xy = some (colourAt s i)

/-- R131: after a shorter run from a raster no run has written, H_READ hands over a free value at
every coordinate outside the decoded tiles. -/
def Obligations.ShortRunLeavesRestOpen : Prop :=
  ∀ s t : State, AtStart s → s.rast = [] → exec .run s = .next t →
    ∃ vs : List RGB, exec .hRead t = .next { t with out := .raster vs, draws := t.draws + 1 } ∧
      ∀ x y, x < 128 → y < 128 → s.len / 16 ≤ y / 8 * 16 + x / 8 →
        vs[y * 128 + x]? = some (Config.freePixel t.draws (y * 128 + x))

/-- R146: the final state is a function of PT, LEN, PAL, MPAL and the prior RAST. That RUN is
accepted in RUN at every K, not only at the accepted start, is the model's choice (log 17). -/
def Obligations.RunDependsOnInputsOnly : Prop :=
  ∀ s s' t : State, s.phase = .run → s'.phase = .run → s.pt = s'.pt → s.len = s'.len →
    s.pal = s'.pal → s.cfg.mpal = s'.cfg.mpal → s.rast = s'.rast → exec .run s = .next t →
    ∃ t' : State, exec .run s' = .next t' ∧ t'.rast = t.rast ∧ t'.k = t.k ∧ t'.phase = t.phase

/-- R115: with the palette no H_SETPAL has written, every pixel of a run is MPAL[0]. -/
def Obligations.DefaultPaletteRunIsOneColour : Prop :=
  ∀ s t : State, AtStart s → s.pal = #v[0#6, 0#6, 0#6, 0#6] → exec .run s = .next t →
    ∀ i, i < 64 * (s.len / 16) → t.rast.written (coordAt i) = s.cfg.mpal[0]?

/-! ## Rules of the whole machine -/

/-- R153: each row of the phase table. -/
def Obligations.OperationsByPhase : Prop :=
  ∀ (i : Instr) (name : String) (phases : List Phase) (s : State),
    phaseTable i = some (name, phases) →
    (s.phase ∈ phases → ∀ m p, exec i s ≠ .refused (.wrongPhase m p)) ∧
    (s.phase ∉ phases → exec i s = .refused (.wrongPhase name s.phase))

/-- R23: PHASE changes only as the rule lists: to IDLE by H_RESET, from IDLE to RUN by H_START, from
RUN to DONE by CORE, and from IDLE to ERROR by an error of H_SETPAL, H_LOAD or H_START alone. -/
def Obligations.PhaseChangesAreLegal : Prop :=
  ∀ (i : Instr) (s t : State), exec i s = .next t →
    (i = .hReset ∧ s.phase ≠ .run ∧ t.phase = .idle) ∨
    (i ≠ .hReset ∧ legalTransition s.phase t.phase = true ∧
      (s.phase = .idle → t.phase = .run → i = .hStart) ∧
      (s.phase = .run → t.phase = .done → i = .step ∨ i = .run) ∧
      (s.phase = .idle → t.phase = .error →
        (∃ text, i = .hSetpal text) ∨ (∃ text, i = .hLoad text) ∨ i = .hStart))

/-- R161 to R165, D12: which operation an error comes from: ParseError from H_LOAD, InvalidPaletteSlot
from H_SETPAL, MalformedTile, FormatViolation (under STRICT_LEN) and RasterOverflow from H_START, each
with its offending value; no other operation changes ERR or ERRINFO but H_RESET. -/
def Obligations.ErrorsComeFromHostOperations : Prop :=
  ∀ (i : Instr) (s t : State), exec i s = .next t →
    (t.err = s.err ∧ t.errinfo = s.errinfo) ∨ i = .hReset ∨
    (t.phase = .error ∧
      (((∃ text, i = .hLoad text) ∧ t.err = 1#3 ∧ ∃ tok, t.errinfo = .token tok) ∨
       ((∃ text, i = .hSetpal text) ∧ t.err = 2#3 ∧ ∃ tok, t.errinfo = .token tok) ∨
       (i = .hStart ∧ t.err = 3#3 ∧ s.len % 16 ≠ 0 ∧ t.errinfo = .num (s.len % 16)) ∨
       (i = .hStart ∧ t.err = 4#3 ∧ s.len % 16 = 0 ∧ 256 < s.len / 16 ∧ t.errinfo = .num (s.len / 16)) ∨
       (i = .hStart ∧ t.err = 6#3 ∧ s.len % 16 = 0 ∧ s.cfg.strictLen = true ∧ s.len ≠ 4096 ∧
         t.errinfo = .num s.len)))

/-- R168: an operation that raises an error writes ERR, ERRINFO and PHASE, and, H_START alone, LENW
before its checks; the registers the rule calls not observable the model leaves (log 11), and the
code and the offending value fit each other. -/
def Obligations.TrapEntryWritesOnly : Prop :=
  ∀ (i : Instr) (s t : State), exec i s = .next t → t.phase = .error → s.phase ≠ .error →
    s.phase = .idle ∧ t.err ≠ 0#3 ∧ recorded t.err t.errinfo = true ∧
    t = { s with err := t.err, errinfo := t.errinfo, phase := .error, lenw := t.lenw,
                 out := .nothing } ∧
    (i ≠ .hStart → t.lenw = s.lenw)

/-- R169, R170: in ERROR nothing but H_RESET changes PHASE, ERR, ERRINFO or LENW, and no operation
that can raise, and no load, start, step, run or raster read, is accepted. -/
def Obligations.ErrorIsStickyUntilReset : Prop :=
  ∀ (i : Instr) (s t : State), s.phase = .error → exec i s = .next t → i ≠ .hReset →
    t.phase = .error ∧ t.err = s.err ∧ t.errinfo = s.errinfo ∧ t.lenw = s.lenw ∧
    acceptedInError i = true

/-- R31, R181: no step changes the master palette or any other parameter. -/
def Obligations.ParametersNeverChange : Prop :=
  ∀ s t : State, step s = .next t → t.cfg = s.cfg

/-- R21: the palette registers are written by H_SETPAL, in IDLE, and by reset alone. That trap
entry leaves them is the model's choice (log 11). -/
def Obligations.PaletteWrittenBySetpalOnly : Prop :=
  ∀ (i : Instr) (s t : State), exec i s = .next t → t.pal ≠ s.pal →
    i = .hReset ∨ ((∃ text, i = .hSetpal text) ∧ s.phase = .idle)

/-- R30: PT and LEN are written by H_LOADB and H_LOAD, in IDLE, and by reset alone; every other
operation leaves every byte of PT. That trap entry leaves them is the model's choice (log 11). -/
def Obligations.PatternMemoryWrittenByLoadsOnly : Prop :=
  ∀ (i : Instr) (s t : State), exec i s = .next t →
    (t.len = s.len ∧ ∀ a, t.ptRead a = s.ptRead a) ∨ i = .hReset ∨
    ((∃ bytes, i = .hLoadb bytes) ∨ ∃ text, i = .hLoad text) ∧ s.phase = .idle

/-- R22: K is set to 0 by H_START and by reset; STEP adds 1 to it or leaves it; RUN sets it to
`64 * NT`; nothing else writes it. That trap entry leaves it is the model's choice (log 11). -/
def Obligations.CounterWrites : Prop :=
  ∀ (i : Instr) (s t : State), exec i s = .next t →
    t.k = s.k ∨ (i = .hReset ∧ t.k = 0) ∨ (i = .hStart ∧ t.k = 0) ∨
    (i = .step ∧ s.phase = .run ∧ t.k = s.k + 1) ∨
    (i = .run ∧ s.phase = .run ∧ t.k = 64 * (s.len / 16))

/-- R24: H_START writes LENW from LEN, also when it raises an error; reset clears it; nothing else
writes it. -/
def Obligations.LengthFlagWrites : Prop :=
  ∀ (i : Instr) (s t : State), exec i s = .next t →
    (i = .hStart → t.lenw = decide (s.len ≠ 4096)) ∧
    (i = .hReset → t.lenw = false) ∧ (i ≠ .hStart → i ≠ .hReset → t.lenw = s.lenw)

/-- R132, R172: RAST is written by CORE (STEP, RUN, COMPOSE), in RUN, and made unspecified by reset;
every other operation leaves every entry. COMPOSE on its own in RUN, at any K, is the model's choice
(logs 13, 25), and so is that trap entry leaves RAST (log 11). -/
def Obligations.RasterWrittenByCoreOnly : Prop :=
  ∀ (i : Instr) (s t : State), exec i s = .next t →
    (∀ xy : Coord, t.rast.written xy = s.rast.written xy) ∨ i = .hReset ∨
    (i = .step ∨ i = .run ∨ ∃ rgb, i = .compose rgb) ∧ s.phase = .run

/-- R35, R71: a stage operation changes nothing but what it hands over, a value or an error. That an
error is handed over and enters no other phase is the model's reading (log 12). -/
def Obligations.StageOperationsAreFunctions : Prop :=
  ∀ (i : Instr) (s t : State), valueOnly i = true → exec i s = .next t → t = { s with out := t.out }
end

