-- ==== Sys2Proof/Laws/Decode.lean ====
section
/-!
SUPPORT. The readers of the serial form undo its writers, one lemma per operand format.
-/
namespace Sys2Proof

@[simp] theorem andRead_ok {α β : Type} (a : α) (bs : List Byte) (f : α → List Byte → Read β) :
    andRead (.ok (a, bs)) f = f a bs := rfl

@[simp] theorem asRead_ok {α β : Type} (f : α → β) (a : α) (bs : List Byte) :
    asRead f (.ok (a, bs)) = .ok (f a, bs) := rfl

/-- What is read on after a value was read there. -/
theorem andRead_eq_ok {α β : Type} (r : Read α) (f : α → List Byte → Read β) (b : β)
    (rest : List Byte) :
    andRead r f = .ok (b, rest) ↔ ∃ a bs, r = .ok (a, bs) ∧ f a bs = .ok (b, rest) := by
  cases r with
  | error e => simp [andRead]
  | ok p => obtain ⟨a, bs⟩ := p; simp [andRead]

theorem asRead_eq_ok {α β : Type} (f : α → β) (r : Read α) (b : β) (rest : List Byte) :
    asRead f r = .ok (b, rest) ↔ ∃ a, r = .ok (a, rest) ∧ f a = b := by
  cases r with
  | error e => simp [asRead]
  | ok p =>
    obtain ⟨a, bs⟩ := p
    simp only [asRead, Except.ok.injEq, Prod.mk.injEq]
    constructor
    · rintro ⟨rfl, rfl⟩; exact ⟨a, ⟨rfl, rfl⟩, rfl⟩
    · rintro ⟨a', ⟨rfl, rfl⟩, rfl⟩; exact ⟨rfl, rfl⟩

@[simp] theorem byteOf_toNat (n k : Nat) : (byteOf n k).toNat = n / 256 ^ k % 256 := by
  simp [byteOf]

theorem readByte_encode (b : Byte) (rest : List Byte) :
    readByte (encodeByte b ++ rest) = .ok (b, rest) := rfl

theorem readRGB_encode (v : RGB) (rest : List Byte) :
    readRGB (encodeRGB v ++ rest) = .ok (v, rest) := rfl

theorem readWord_encode (w : RowWord) (rest : List Byte) :
    readWord (encodeWord w ++ rest) = .ok (w, rest) := by
  have h : w.extractLsb' 8 8 ++ w.extractLsb' 0 8 = w := by
    apply BitVec.eq_of_toNat_eq
    have := w.isLt
    simp only [BitVec.toNat_append, BitVec.extractLsb'_toNat]
    rw [Nat.shiftLeft_eq, Nat.shiftRight_eq_div_pow, Nat.shiftRight_eq_div_pow,
      Nat.mul_comm, ← Nat.two_pow_add_eq_or_of_lt (Nat.mod_lt _ (by decide))]
    omega
  simp [readWord, encodeWord, h]

theorem readFlat_encode {i : Nat} (h : i < 2 ^ 32) (rest : List Byte) :
    readFlat (encodeFlat i ++ rest) = .ok (i, rest) := by
  simp only [encodeFlat, List.cons_append, List.nil_append, readFlat, byteOf_toNat,
    Except.ok.injEq, Prod.mk.injEq, and_true]
  omega

theorem readChar_encode (c : Char) (rest : List Byte) :
    readChar (encodeChar c ++ rest) = .ok (c, rest) := by
  have hc : c.toNat < 1114112 := by
    rcases c.valid with h | ⟨_, h⟩
    · exact lt_trans h (by decide)
    · exact h
  have hn : c.toNat / 256 ^ 0 % 256 + 256 * (c.toNat / 256 ^ 1 % 256) +
      65536 * (c.toNat / 256 ^ 2 % 256) = c.toNat := by omega
  simp only [encodeChar, List.cons_append, List.nil_append, readChar, byteOf_toNat, hn,
    Char.ofNat_toNat, if_true]

theorem readColumn_encode (c : Column) (rest : List Byte) :
    readColumn (encodeColumn c ++ rest) = .ok (c, rest) := by
  have h : ∀ c : Column, (c.setWidth 8).toNat < 8 ∧ (c.setWidth 8).setWidth 3 = c := by decide
  simp only [encodeColumn, List.cons_append, List.nil_append, readColumn, h c, if_true]

theorem readIndex_encode (n : PixelIdx) (rest : List Byte) :
    readIndex (encodeIndex n ++ rest) = .ok (n, rest) := by
  have h : ∀ n : PixelIdx, (n.setWidth 8).toNat < 4 ∧ (n.setWidth 8).setWidth 2 = n := by decide
  simp only [encodeIndex, List.cons_append, List.nil_append, readIndex, h n, if_true]

theorem readCount_append (bs rest : List Byte) :
    readCount bs.length (bs ++ rest) = .ok (bs, rest) := by
  induction bs with
  | nil => rfl
  | cons b bs ih => simp [readCount, ih]

/-- A sequence reads back, whatever its elements are, if each element does. -/
theorem readMarked_encode {α : Type} (elem : List Byte → Read α) (enc : α → List Byte)
    (h : ∀ a rest, elem (enc a ++ rest) = .ok (a, rest)) (xs : List α) :
    ∀ (fuel : Nat) (rest : List Byte), xs.length < fuel →
      readMarked elem fuel (encodeSeq enc xs ++ rest) = .ok (xs, rest) := by
  induction xs with
  | nil =>
    intro fuel rest hf
    obtain ⟨n, rfl⟩ : ∃ n, fuel = n + 1 := ⟨fuel - 1, by simp at hf; omega⟩
    rfl
  | cons a xs ih =>
    intro fuel rest hf
    obtain ⟨n, rfl⟩ : ∃ n, fuel = n + 1 := ⟨fuel - 1, by simp at hf; omega⟩
    have hx := ih n rest (by simpa using hf)
    simp [encodeSeq, readMarked, h, hx]

theorem encodeSeq_length {α : Type} (enc : α → List Byte) (xs : List α) :
    xs.length < (encodeSeq enc xs).length := by
  induction xs with
  | nil => simp [encodeSeq]
  | cons a xs ih =>
    simp only [encodeSeq, List.length_cons, List.length_append]
    omega

theorem readSeq_encode {α : Type} (elem : List Byte → Read α) (enc : α → List Byte)
    (h : ∀ a rest, elem (enc a ++ rest) = .ok (a, rest)) (xs : List α) (rest : List Byte) :
    readSeq elem (encodeSeq enc xs ++ rest) = .ok (xs, rest) := by
  refine readMarked_encode elem enc h xs _ rest ?_
  rw [List.length_append]
  have := encodeSeq_length enc xs
  omega

end Sys2Proof
end

