-- ==== Sys2Proof/Laws/State.lean ====
section
/-!
SUPPORT. One lemma per field and update of State, so that no proof unfolds a record update.
-/
namespace Sys2Proof.Machine

@[simp] theorem State.setPal_pal (s : State) (p : Vector PalValue 4) : (s.setPal p).pal = p := rfl
@[simp] theorem State.setPal_k (s : State) (p : Vector PalValue 4) : (s.setPal p).k = s.k := rfl
@[simp] theorem State.setPal_phase (s : State) (p : Vector PalValue 4) : (s.setPal p).phase = s.phase := rfl
@[simp] theorem State.setPal_lenw (s : State) (p : Vector PalValue 4) : (s.setPal p).lenw = s.lenw := rfl
@[simp] theorem State.setPal_err (s : State) (p : Vector PalValue 4) : (s.setPal p).err = s.err := rfl
@[simp] theorem State.setPal_errinfo (s : State) (p : Vector PalValue 4) : (s.setPal p).errinfo = s.errinfo := rfl
@[simp] theorem State.setPal_len (s : State) (p : Vector PalValue 4) : (s.setPal p).len = s.len := rfl
@[simp] theorem State.setPal_pt (s : State) (p : Vector PalValue 4) : (s.setPal p).pt = s.pt := rfl
@[simp] theorem State.setPal_rast (s : State) (p : Vector PalValue 4) : (s.setPal p).rast = s.rast := rfl
@[simp] theorem State.setPal_cfg (s : State) (p : Vector PalValue 4) : (s.setPal p).cfg = s.cfg := rfl
@[simp] theorem State.setPal_out (s : State) (p : Vector PalValue 4) : (s.setPal p).out = s.out := rfl
@[simp] theorem State.setPal_draws (s : State) (p : Vector PalValue 4) : (s.setPal p).draws = s.draws := rfl
@[simp] theorem State.setPal_queue (s : State) (p : Vector PalValue 4) : (s.setPal p).queue = s.queue := rfl

@[simp] theorem State.setK_pal (s : State) (n : Nat) : (s.setK n).pal = s.pal := rfl
@[simp] theorem State.setK_k (s : State) (n : Nat) : (s.setK n).k = n := rfl
@[simp] theorem State.setK_phase (s : State) (n : Nat) : (s.setK n).phase = s.phase := rfl
@[simp] theorem State.setK_lenw (s : State) (n : Nat) : (s.setK n).lenw = s.lenw := rfl
@[simp] theorem State.setK_err (s : State) (n : Nat) : (s.setK n).err = s.err := rfl
@[simp] theorem State.setK_errinfo (s : State) (n : Nat) : (s.setK n).errinfo = s.errinfo := rfl
@[simp] theorem State.setK_len (s : State) (n : Nat) : (s.setK n).len = s.len := rfl
@[simp] theorem State.setK_pt (s : State) (n : Nat) : (s.setK n).pt = s.pt := rfl
@[simp] theorem State.setK_rast (s : State) (n : Nat) : (s.setK n).rast = s.rast := rfl
@[simp] theorem State.setK_cfg (s : State) (n : Nat) : (s.setK n).cfg = s.cfg := rfl
@[simp] theorem State.setK_out (s : State) (n : Nat) : (s.setK n).out = s.out := rfl
@[simp] theorem State.setK_draws (s : State) (n : Nat) : (s.setK n).draws = s.draws := rfl
@[simp] theorem State.setK_queue (s : State) (n : Nat) : (s.setK n).queue = s.queue := rfl

@[simp] theorem State.setPhase_pal (s : State) (p : Phase) : (s.setPhase p).pal = s.pal := rfl
@[simp] theorem State.setPhase_k (s : State) (p : Phase) : (s.setPhase p).k = s.k := rfl
@[simp] theorem State.setPhase_phase (s : State) (p : Phase) : (s.setPhase p).phase = p := rfl
@[simp] theorem State.setPhase_lenw (s : State) (p : Phase) : (s.setPhase p).lenw = s.lenw := rfl
@[simp] theorem State.setPhase_err (s : State) (p : Phase) : (s.setPhase p).err = s.err := rfl
@[simp] theorem State.setPhase_errinfo (s : State) (p : Phase) : (s.setPhase p).errinfo = s.errinfo := rfl
@[simp] theorem State.setPhase_len (s : State) (p : Phase) : (s.setPhase p).len = s.len := rfl
@[simp] theorem State.setPhase_pt (s : State) (p : Phase) : (s.setPhase p).pt = s.pt := rfl
@[simp] theorem State.setPhase_rast (s : State) (p : Phase) : (s.setPhase p).rast = s.rast := rfl
@[simp] theorem State.setPhase_cfg (s : State) (p : Phase) : (s.setPhase p).cfg = s.cfg := rfl
@[simp] theorem State.setPhase_out (s : State) (p : Phase) : (s.setPhase p).out = s.out := rfl
@[simp] theorem State.setPhase_draws (s : State) (p : Phase) : (s.setPhase p).draws = s.draws := rfl
@[simp] theorem State.setPhase_queue (s : State) (p : Phase) : (s.setPhase p).queue = s.queue := rfl

@[simp] theorem State.setLenw_pal (s : State) (b : Bool) : (s.setLenw b).pal = s.pal := rfl
@[simp] theorem State.setLenw_k (s : State) (b : Bool) : (s.setLenw b).k = s.k := rfl
@[simp] theorem State.setLenw_phase (s : State) (b : Bool) : (s.setLenw b).phase = s.phase := rfl
@[simp] theorem State.setLenw_lenw (s : State) (b : Bool) : (s.setLenw b).lenw = b := rfl
@[simp] theorem State.setLenw_err (s : State) (b : Bool) : (s.setLenw b).err = s.err := rfl
@[simp] theorem State.setLenw_errinfo (s : State) (b : Bool) : (s.setLenw b).errinfo = s.errinfo := rfl
@[simp] theorem State.setLenw_len (s : State) (b : Bool) : (s.setLenw b).len = s.len := rfl
@[simp] theorem State.setLenw_pt (s : State) (b : Bool) : (s.setLenw b).pt = s.pt := rfl
@[simp] theorem State.setLenw_rast (s : State) (b : Bool) : (s.setLenw b).rast = s.rast := rfl
@[simp] theorem State.setLenw_cfg (s : State) (b : Bool) : (s.setLenw b).cfg = s.cfg := rfl
@[simp] theorem State.setLenw_out (s : State) (b : Bool) : (s.setLenw b).out = s.out := rfl
@[simp] theorem State.setLenw_draws (s : State) (b : Bool) : (s.setLenw b).draws = s.draws := rfl
@[simp] theorem State.setLenw_queue (s : State) (b : Bool) : (s.setLenw b).queue = s.queue := rfl

@[simp] theorem State.setBlock_pal (s : State) (m : Memory) (n : Nat) : (s.setBlock m n).pal = s.pal := rfl
@[simp] theorem State.setBlock_k (s : State) (m : Memory) (n : Nat) : (s.setBlock m n).k = s.k := rfl
@[simp] theorem State.setBlock_phase (s : State) (m : Memory) (n : Nat) : (s.setBlock m n).phase = s.phase := rfl
@[simp] theorem State.setBlock_lenw (s : State) (m : Memory) (n : Nat) : (s.setBlock m n).lenw = s.lenw := rfl
@[simp] theorem State.setBlock_err (s : State) (m : Memory) (n : Nat) : (s.setBlock m n).err = s.err := rfl
@[simp] theorem State.setBlock_errinfo (s : State) (m : Memory) (n : Nat) : (s.setBlock m n).errinfo = s.errinfo := rfl
@[simp] theorem State.setBlock_len (s : State) (m : Memory) (n : Nat) : (s.setBlock m n).len = n := rfl
@[simp] theorem State.setBlock_pt (s : State) (m : Memory) (n : Nat) : (s.setBlock m n).pt = m := rfl
@[simp] theorem State.setBlock_rast (s : State) (m : Memory) (n : Nat) : (s.setBlock m n).rast = s.rast := rfl
@[simp] theorem State.setBlock_cfg (s : State) (m : Memory) (n : Nat) : (s.setBlock m n).cfg = s.cfg := rfl
@[simp] theorem State.setBlock_out (s : State) (m : Memory) (n : Nat) : (s.setBlock m n).out = s.out := rfl
@[simp] theorem State.setBlock_draws (s : State) (m : Memory) (n : Nat) : (s.setBlock m n).draws = s.draws := rfl
@[simp] theorem State.setBlock_queue (s : State) (m : Memory) (n : Nat) : (s.setBlock m n).queue = s.queue := rfl

@[simp] theorem State.setRast_pal (s : State) (r : Raster) : (s.setRast r).pal = s.pal := rfl
@[simp] theorem State.setRast_k (s : State) (r : Raster) : (s.setRast r).k = s.k := rfl
@[simp] theorem State.setRast_phase (s : State) (r : Raster) : (s.setRast r).phase = s.phase := rfl
@[simp] theorem State.setRast_lenw (s : State) (r : Raster) : (s.setRast r).lenw = s.lenw := rfl
@[simp] theorem State.setRast_err (s : State) (r : Raster) : (s.setRast r).err = s.err := rfl
@[simp] theorem State.setRast_errinfo (s : State) (r : Raster) : (s.setRast r).errinfo = s.errinfo := rfl
@[simp] theorem State.setRast_len (s : State) (r : Raster) : (s.setRast r).len = s.len := rfl
@[simp] theorem State.setRast_pt (s : State) (r : Raster) : (s.setRast r).pt = s.pt := rfl
@[simp] theorem State.setRast_rast (s : State) (r : Raster) : (s.setRast r).rast = r := rfl
@[simp] theorem State.setRast_cfg (s : State) (r : Raster) : (s.setRast r).cfg = s.cfg := rfl
@[simp] theorem State.setRast_out (s : State) (r : Raster) : (s.setRast r).out = s.out := rfl
@[simp] theorem State.setRast_draws (s : State) (r : Raster) : (s.setRast r).draws = s.draws := rfl
@[simp] theorem State.setRast_queue (s : State) (r : Raster) : (s.setRast r).queue = s.queue := rfl

@[simp] theorem State.setOut_pal (s : State) (r : Result) : (s.setOut r).pal = s.pal := rfl
@[simp] theorem State.setOut_k (s : State) (r : Result) : (s.setOut r).k = s.k := rfl
@[simp] theorem State.setOut_phase (s : State) (r : Result) : (s.setOut r).phase = s.phase := rfl
@[simp] theorem State.setOut_lenw (s : State) (r : Result) : (s.setOut r).lenw = s.lenw := rfl
@[simp] theorem State.setOut_err (s : State) (r : Result) : (s.setOut r).err = s.err := rfl
@[simp] theorem State.setOut_errinfo (s : State) (r : Result) : (s.setOut r).errinfo = s.errinfo := rfl
@[simp] theorem State.setOut_len (s : State) (r : Result) : (s.setOut r).len = s.len := rfl
@[simp] theorem State.setOut_pt (s : State) (r : Result) : (s.setOut r).pt = s.pt := rfl
@[simp] theorem State.setOut_rast (s : State) (r : Result) : (s.setOut r).rast = s.rast := rfl
@[simp] theorem State.setOut_cfg (s : State) (r : Result) : (s.setOut r).cfg = s.cfg := rfl
@[simp] theorem State.setOut_out (s : State) (r : Result) : (s.setOut r).out = r := rfl
@[simp] theorem State.setOut_draws (s : State) (r : Result) : (s.setOut r).draws = s.draws := rfl
@[simp] theorem State.setOut_queue (s : State) (r : Result) : (s.setOut r).queue = s.queue := rfl

@[simp] theorem State.setQueue_pal (s : State) (q : List Byte) : (s.setQueue q).pal = s.pal := rfl
@[simp] theorem State.setQueue_k (s : State) (q : List Byte) : (s.setQueue q).k = s.k := rfl
@[simp] theorem State.setQueue_phase (s : State) (q : List Byte) : (s.setQueue q).phase = s.phase := rfl
@[simp] theorem State.setQueue_lenw (s : State) (q : List Byte) : (s.setQueue q).lenw = s.lenw := rfl
@[simp] theorem State.setQueue_err (s : State) (q : List Byte) : (s.setQueue q).err = s.err := rfl
@[simp] theorem State.setQueue_errinfo (s : State) (q : List Byte) : (s.setQueue q).errinfo = s.errinfo := rfl
@[simp] theorem State.setQueue_len (s : State) (q : List Byte) : (s.setQueue q).len = s.len := rfl
@[simp] theorem State.setQueue_pt (s : State) (q : List Byte) : (s.setQueue q).pt = s.pt := rfl
@[simp] theorem State.setQueue_rast (s : State) (q : List Byte) : (s.setQueue q).rast = s.rast := rfl
@[simp] theorem State.setQueue_cfg (s : State) (q : List Byte) : (s.setQueue q).cfg = s.cfg := rfl
@[simp] theorem State.setQueue_out (s : State) (q : List Byte) : (s.setQueue q).out = s.out := rfl
@[simp] theorem State.setQueue_draws (s : State) (q : List Byte) : (s.setQueue q).draws = s.draws := rfl
@[simp] theorem State.setQueue_queue (s : State) (q : List Byte) : (s.setQueue q).queue = q := rfl

@[simp] theorem State.drawn_pal (s : State) : s.drawn.pal = s.pal := rfl
@[simp] theorem State.drawn_k (s : State) : s.drawn.k = s.k := rfl
@[simp] theorem State.drawn_phase (s : State) : s.drawn.phase = s.phase := rfl
@[simp] theorem State.drawn_lenw (s : State) : s.drawn.lenw = s.lenw := rfl
@[simp] theorem State.drawn_err (s : State) : s.drawn.err = s.err := rfl
@[simp] theorem State.drawn_errinfo (s : State) : s.drawn.errinfo = s.errinfo := rfl
@[simp] theorem State.drawn_len (s : State) : s.drawn.len = s.len := rfl
@[simp] theorem State.drawn_pt (s : State) : s.drawn.pt = s.pt := rfl
@[simp] theorem State.drawn_rast (s : State) : s.drawn.rast = s.rast := rfl
@[simp] theorem State.drawn_cfg (s : State) : s.drawn.cfg = s.cfg := rfl
@[simp] theorem State.drawn_out (s : State) : s.drawn.out = s.out := rfl
@[simp] theorem State.drawn_draws (s : State) : s.drawn.draws = s.draws + 1 := rfl
@[simp] theorem State.drawn_queue (s : State) : s.drawn.queue = s.queue := rfl

@[simp] theorem trapEntry_pal (e : ErrKind) (info : ErrInfo) (s : State) :
    (trapEntry e info s).pal = s.pal := rfl
@[simp] theorem trapEntry_k (e : ErrKind) (info : ErrInfo) (s : State) :
    (trapEntry e info s).k = s.k := rfl
@[simp] theorem trapEntry_phase (e : ErrKind) (info : ErrInfo) (s : State) :
    (trapEntry e info s).phase = .error := rfl
@[simp] theorem trapEntry_lenw (e : ErrKind) (info : ErrInfo) (s : State) :
    (trapEntry e info s).lenw = s.lenw := rfl
@[simp] theorem trapEntry_err (e : ErrKind) (info : ErrInfo) (s : State) :
    (trapEntry e info s).err = e.code := rfl
@[simp] theorem trapEntry_errinfo (e : ErrKind) (info : ErrInfo) (s : State) :
    (trapEntry e info s).errinfo = info := rfl
@[simp] theorem trapEntry_len (e : ErrKind) (info : ErrInfo) (s : State) :
    (trapEntry e info s).len = s.len := rfl
@[simp] theorem trapEntry_pt (e : ErrKind) (info : ErrInfo) (s : State) :
    (trapEntry e info s).pt = s.pt := rfl
@[simp] theorem trapEntry_rast (e : ErrKind) (info : ErrInfo) (s : State) :
    (trapEntry e info s).rast = s.rast := rfl
@[simp] theorem trapEntry_cfg (e : ErrKind) (info : ErrInfo) (s : State) :
    (trapEntry e info s).cfg = s.cfg := rfl
@[simp] theorem trapEntry_out (e : ErrKind) (info : ErrInfo) (s : State) :
    (trapEntry e info s).out = .nothing := rfl
@[simp] theorem trapEntry_draws (e : ErrKind) (info : ErrInfo) (s : State) :
    (trapEntry e info s).draws = s.draws := rfl
@[simp] theorem trapEntry_queue (e : ErrKind) (info : ErrInfo) (s : State) :
    (trapEntry e info s).queue = s.queue := rfl

@[simp] theorem State.resetBlock_pal (s : State) : s.resetBlock.pal = #v[0#6, 0#6, 0#6, 0#6] := rfl
@[simp] theorem State.resetBlock_k (s : State) : s.resetBlock.k = 0 := rfl
@[simp] theorem State.resetBlock_phase (s : State) : s.resetBlock.phase = .idle := rfl
@[simp] theorem State.resetBlock_lenw (s : State) : s.resetBlock.lenw = false := rfl
@[simp] theorem State.resetBlock_err (s : State) : s.resetBlock.err = 0#3 := rfl
@[simp] theorem State.resetBlock_errinfo (s : State) : s.resetBlock.errinfo = .num 0 := rfl
@[simp] theorem State.resetBlock_len (s : State) : s.resetBlock.len = 0 := rfl
@[simp] theorem State.resetBlock_pt (s : State) : s.resetBlock.pt = [] := rfl
@[simp] theorem State.resetBlock_rast (s : State) : s.resetBlock.rast = [] := rfl
@[simp] theorem State.resetBlock_cfg (s : State) : s.resetBlock.cfg = s.cfg := rfl
@[simp] theorem State.resetBlock_out (s : State) : s.resetBlock.out = .nothing := rfl
@[simp] theorem State.resetBlock_draws (s : State) : s.resetBlock.draws = s.draws + 1 := rfl
@[simp] theorem State.resetBlock_queue (s : State) : s.resetBlock.queue = s.queue := rfl

/-! NT, the number of whole tiles, follows LEN (R27). -/

@[simp] theorem State.nt_setLenw (s : State) (b : Bool) : (s.setLenw b).nt = s.nt := rfl

end Sys2Proof.Machine
end

