-- ==== Sys2Proof/Laws/Ops.lean ====
section
/-!
SUPPORT. What each shared operation can do, said once: the guards, a raise, a stage function's
answer; the laws of cells, of PT and of RAST; the next operation.
-/
namespace Sys2Proof.Machine

/-! Outcomes. -/

@[simp] theorem handOver_next (r : Result) (s t : State) :
    handOver r s = .next t ↔ t = s.setOut r := by
  simp [handOver, eq_comm]

@[simp] theorem handOver_ne_fault (r : Result) (s : State) (f : Fault) :
    handOver r s ≠ .fault f := by simp [handOver]

@[simp] theorem handOver_ne_refused (r : Result) (s : State) (f : Refusal) :
    handOver r s ≠ .refused f := by simp [handOver]

/-- A raise answers a next state in IDLE alone, and it is trap entry. -/
theorem raiseError_next (e : ErrKind) (info : ErrInfo) (s t : State) :
    raiseError e info s = .next t ↔ s.phase = .idle ∧ t = trapEntry e info s := by
  unfold raiseError
  split <;> simp_all [eq_comm]

theorem raiseError_idle (e : ErrKind) (info : ErrInfo) {s : State} (h : s.phase = .idle) :
    raiseError e info s = .next (trapEntry e info s) := by
  simp [raiseError, h]

theorem raiseError_ne_wrongPhase (e : ErrKind) (info : ErrInfo) (s : State) (m : String)
    (p : Phase) : raiseError e info s ≠ .refused (.wrongPhase m p) := by
  unfold raiseError
  split <;> simp

/-- An answer leads to a next state by its value or by its error. -/
theorem conclude_next {α : Type} (s t : State) (a : Answer α) (k : α → Outcome) :
    conclude s a k = .next t ↔
      (∃ v, a = .value v ∧ k v = .next t) ∨
      (∃ e info, a = .raised e info ∧ s.phase = .idle ∧ t = trapEntry e info s) := by
  cases a <;> simp [conclude, raiseError_next]

theorem conclude_value {α : Type} (s : State) (v : α) (k : α → Outcome) :
    conclude s (.value v) k = k v := rfl

theorem conclude_raised {α : Type} (s : State) (e : ErrKind) (info : ErrInfo) (k : α → Outcome) :
    conclude s (.raised e info) k = raiseError e info s := rfl

theorem conclude_refused {α : Type} (s : State) (r : Refusal) (k : α → Outcome) :
    conclude s (.refused r) k = .refused r := rfl

/-- An answer taken up on its own leads to a next state by its value, or hands its error over. -/
theorem onItsOwn_next {α : Type} (s t : State) (a : Answer α) (k : α → Outcome) :
    onItsOwn s a k = .next t ↔
      (∃ v, a = .value v ∧ k v = .next t) ∨
      (∃ e info, a = .raised e info ∧ t = s.setOut (.error e info)) := by
  cases a <;> simp [onItsOwn]

theorem onItsOwn_value {α : Type} (s : State) (v : α) (k : α → Outcome) :
    onItsOwn s (.value v) k = k v := rfl

theorem onItsOwn_raised {α : Type} (s : State) (e : ErrKind) (info : ErrInfo) (k : α → Outcome) :
    onItsOwn s (.raised e info) k = handOver (.error e info) s := rfl

theorem onItsOwn_refused {α : Type} (s : State) (r : Refusal) (k : α → Outcome) :
    onItsOwn s (.refused r) k = .refused r := rfl

theorem onlyIn_next (p : Phase) (m : String) (s t : State) (k : Outcome) :
    onlyIn p m s k = .next t ↔ s.phase = p ∧ k = .next t := by
  unfold onlyIn
  split <;> simp_all

theorem onlyIn_pos {p : Phase} (m : String) {s : State} (k : Outcome) (h : s.phase = p) :
    onlyIn p m s k = k := by simp [onlyIn, h]

theorem onlyIn_neg {p : Phase} (m : String) {s : State} (k : Outcome) (h : s.phase ≠ p) :
    onlyIn p m s k = .refused (.wrongPhase m s.phase) := by simp [onlyIn, h]

theorem notIn_next (p : Phase) (m : String) (s t : State) (k : Outcome) :
    notIn p m s k = .next t ↔ s.phase ≠ p ∧ k = .next t := by
  unfold notIn
  split <;> simp_all

theorem notIn_pos {p : Phase} (m : String) {s : State} (k : Outcome) (h : s.phase = p) :
    notIn p m s k = .refused (.wrongPhase m s.phase) := by simp [notIn, h]

theorem notIn_neg {p : Phase} (m : String) {s : State} (k : Outcome) (h : s.phase ≠ p) :
    notIn p m s k = k := by simp [notIn, h]

theorem Answer.andThen_eq_value {α β : Type} (a : Answer α) (f : α → Answer β) (b : β) :
    a.andThen f = .value b ↔ ∃ v, a = .value v ∧ f v = .value b := by
  cases a <;> simp [Answer.andThen]

theorem Answer.andThen_eq_raised {α β : Type} (a : Answer α) (f : α → Answer β) (e : ErrKind)
    (info : ErrInfo) :
    a.andThen f = .raised e info ↔
      a = .raised e info ∨ ∃ v, a = .value v ∧ f v = .raised e info := by
  cases a <;> simp [Answer.andThen]

/-! Cells. -/

theorem cellGet_cellPut_self {α : Type} (m : List (Nat × α)) (a : Nat) (v : α) :
    cellGet (cellPut m a v) a = some v := by
  induction m with
  | nil => simp [cellPut, cellGet]
  | cons c rest ih =>
    obtain ⟨b, w⟩ := c
    unfold cellPut
    split
    · simp [cellGet]
    · split
      · simp [cellGet]
      · rename_i h
        simp [cellGet, Ne.symm h, ih]

theorem cellGet_cellPut_ne {α : Type} (m : List (Nat × α)) {a b : Nat} (v : α) (h : b ≠ a) :
    cellGet (cellPut m a v) b = cellGet m b := by
  induction m with
  | nil => simp [cellPut, cellGet, h.symm]
  | cons c rest ih =>
    obtain ⟨d, w⟩ := c
    unfold cellPut
    split
    · simp [cellGet, h.symm]
    · split
      · rename_i hd
        subst hd
        simp [cellGet, h.symm]
      · simp [cellGet, ih]

theorem cellsWithin_cons {α : Type} (lo hi a : Nat) (v : α) (m : List (Nat × α)) :
    cellsWithin lo hi ((a, v) :: m) = true ↔
      lo ≤ a ∧ a < hi ∧ cellsWithin (a + 1) hi m = true := by
  simp [cellsWithin, and_assoc]

/-- A smaller lower bound holds as well. -/
theorem cellsWithin_mono {α : Type} {lo lo' hi : Nat} (h : lo' ≤ lo) {m : List (Nat × α)}
    (hm : cellsWithin lo hi m = true) : cellsWithin lo' hi m = true := by
  cases m with
  | nil => rfl
  | cons c rest =>
    obtain ⟨a, v⟩ := c
    rw [cellsWithin_cons] at hm ⊢
    exact ⟨h.trans hm.1, hm.2⟩

/-- Writing a cell keeps the canonical form. -/
theorem cellsWithin_cellPut {α : Type} (m : List (Nat × α)) :
    ∀ {lo hi a : Nat} (v : α), cellsWithin lo hi m = true → lo ≤ a → a < hi →
      cellsWithin lo hi (cellPut m a v) = true := by
  induction m with
  | nil => intro lo hi a v _ h1 h2; simp [cellPut, cellsWithin, h1, h2]
  | cons c rest ih =>
    obtain ⟨b, w⟩ := c
    intro lo hi a v hm h1 h2
    rw [cellsWithin_cons] at hm
    obtain ⟨hb1, hb2, hr⟩ := hm
    unfold cellPut
    split
    · rename_i hab
      rw [cellsWithin_cons, cellsWithin_cons]
      exact ⟨h1, h2, hab, hb2, hr⟩
    · split
      · rename_i hab
        subst hab
        rw [cellsWithin_cons]
        exact ⟨h1, h2, hr⟩
      · rename_i h3 h4
        rw [cellsWithin_cons]
        exact ⟨hb1, hb2, ih v hr (by omega) h2⟩

/-- Nothing is listed below the lower bound. -/
theorem cellGet_below {α : Type} (m : List (Nat × α)) :
    ∀ {lo hi a : Nat}, cellsWithin lo hi m = true → a < lo → cellGet m a = none := by
  induction m with
  | nil => intros; rfl
  | cons c rest ih =>
    obtain ⟨b, w⟩ := c
    intro lo hi a hm ha
    rw [cellsWithin_cons] at hm
    have hba : b ≠ a := by omega
    simp only [cellGet, if_neg hba]
    exact ih hm.2.2 (by omega)

/-- Nothing is listed at or above the upper bound. -/
theorem cellGet_above {α : Type} (m : List (Nat × α)) :
    ∀ {lo hi a : Nat}, cellsWithin lo hi m = true → hi ≤ a → cellGet m a = none := by
  induction m with
  | nil => intros; rfl
  | cons c rest ih =>
    obtain ⟨b, w⟩ := c
    intro lo hi a hm ha
    rw [cellsWithin_cons] at hm
    have hba : b ≠ a := by omega
    simp only [cellGet, if_neg hba]
    exact ih hm.2.2 ha

/-- Cells in canonical form that list the same are the same list. -/
theorem cells_ext {α : Type} (m : List (Nat × α)) :
    ∀ {lo hi : Nat} (m' : List (Nat × α)), cellsWithin lo hi m = true →
      cellsWithin lo hi m' = true → (∀ a, cellGet m a = cellGet m' a) → m = m' := by
  induction m with
  | nil =>
    intro lo hi m' _ _ h
    cases m' with
    | nil => rfl
    | cons c rest => simpa [cellGet] using h c.1
  | cons c rest ih =>
    obtain ⟨a, v⟩ := c
    intro lo hi m' hm hm' h
    cases m' with
    | nil => simpa [cellGet] using h a
    | cons c' rest' =>
      obtain ⟨b, w⟩ := c'
      rw [cellsWithin_cons] at hm hm'
      have hab : a = b := by
        by_contra hne
        rcases Nat.lt_or_gt_of_ne hne with hlt | hgt
        · have := h a
          simp only [cellGet, if_pos, if_neg (Ne.symm hne)] at this
          rw [cellGet_below rest' hm'.2.2 (by omega)] at this
          simp at this
        · have := h b
          simp only [cellGet, if_pos, if_neg hne] at this
          rw [cellGet_below rest hm.2.2 (by omega)] at this
          simp at this
      subst hab
      have hv : v = w := by simpa [cellGet] using h a
      subst hv
      have hrest : rest = rest' := by
        refine ih rest' hm.2.2 hm'.2.2 fun d => ?_
        by_cases hd : a = d
        · subst hd
          rw [cellGet_below rest hm.2.2 (by omega), cellGet_below rest' hm'.2.2 (by omega)]
        · simpa [cellGet, hd] using h d
      rw [hrest]

/-! PT. -/

theorem Memory.ofBytesFrom_within (bs : List Byte) :
    ∀ (a : Nat), cellsWithin a (a + bs.length) (Memory.ofBytesFrom a bs) = true := by
  induction bs with
  | nil => intro a; rfl
  | cons b bs ih =>
    intro a
    have hrec := ih (a + 1)
    rw [show a + 1 + bs.length = a + (b :: bs).length by simp; omega] at hrec
    unfold Memory.ofBytesFrom
    split
    · exact cellsWithin_mono (by omega) hrec
    · rw [cellsWithin_cons]
      exact ⟨le_rfl, by simp, hrec⟩

theorem Memory.ofBytesFrom_listed (bs : List Byte) :
    ∀ (a : Nat), (Memory.ofBytesFrom a bs).all (fun c => c.2 != Memory.unlisted) = true := by
  induction bs with
  | nil => intro a; rfl
  | cons b bs ih =>
    intro a
    unfold Memory.ofBytesFrom
    split
    · exact ih (a + 1)
    · rename_i hb
      simp only [List.all_cons, Bool.and_eq_true, bne_iff_ne]
      exact ⟨hb, ih (a + 1)⟩

/-- Loading a byte block gives PT its canonical form. -/
theorem Memory.ofBytes_wf (bs : List Byte) : (Memory.ofBytes bs).wf bs.length = true := by
  have h := Memory.ofBytesFrom_within bs 0
  rw [Nat.zero_add] at h
  simp only [Memory.wf, Memory.ofBytes, Bool.and_eq_true]
  exact ⟨h, Memory.ofBytesFrom_listed bs 0⟩

theorem Memory.peek_ofBytesFrom (bs : List Byte) :
    ∀ (a k : Nat), k < bs.length →
      (Memory.ofBytesFrom a bs).peek (a + k) = bs.getD k Memory.unlisted := by
  induction bs with
  | nil => intro a k hk; simp at hk
  | cons b bs ih =>
    intro a k hk
    have hw := Memory.ofBytesFrom_within bs (a + 1)
    cases k with
    | zero =>
      unfold Memory.ofBytesFrom
      split
      · rename_i hb
        simp [Memory.peek, cellGet_below _ hw, hb]
      · simp [Memory.peek, cellGet]
    | succ k =>
      have hrec := ih (a + 1) k (by simpa using hk)
      rw [show a + 1 + k = a + (k + 1) by omega] at hrec
      unfold Memory.ofBytesFrom
      split
      · simpa using hrec
      · have : a ≠ a + (k + 1) := by omega
        simpa [Memory.peek, cellGet, this] using hrec

/-- A loaded byte reads back (R142). -/
theorem Memory.peek_ofBytes (bs : List Byte) {k : Nat} (h : k < bs.length) :
    (Memory.ofBytes bs).peek k = bs[k] := by
  have := Memory.peek_ofBytesFrom bs 0 k h
  rw [Nat.zero_add] at this
  simpa [Memory.ofBytes, h] using this

@[simp] theorem State.block_length (s : State) : s.block.length = s.len := by
  simp [State.block]

theorem State.block_getElem (s : State) {a : Nat} (h : a < s.block.length) :
    s.block[a] = s.pt.peek a := by
  simp [State.block]

/-- After a load the block is the loaded byte sequence. -/
theorem State.block_setBlock (s : State) (bs : List Byte) :
    (s.setBlock (Memory.ofBytes bs) bs.length).block = bs := by
  apply List.ext_getElem
  · simp
  · intro k h1 h2
    rw [State.block_getElem]
    exact Memory.peek_ofBytes bs h2

/-- A read of PT answers exactly at the addresses that exist (R30). -/
theorem State.ptRead_eq_some (s : State) (a : Nat) (b : Byte) :
    s.ptRead a = some b ↔ a < s.len ∧ b = s.pt.peek a := by
  unfold State.ptRead
  split <;> simp_all [eq_comm]

/-! RAST. -/

theorem rasterIndex_lt {xy : Coord} (h : xy.InRaster) : rasterIndex xy < Config.RASTER_PIXELS := by
  obtain ⟨h1, h2⟩ := h
  simp only [rasterIndex, Config.RW, Config.RASTER_PIXELS]
  omega

theorem rasterIndex_injective {p q : Coord} (hp : p.InRaster) (hq : q.InRaster)
    (h : rasterIndex p = rasterIndex q) : p = q := by
  obtain ⟨p1, p2⟩ := p
  obtain ⟨q1, q2⟩ := q
  simp only [Coord.InRaster, rasterIndex, Config.RW] at *
  have h1 : p1 = q1 := by omega
  have h2 : p2 = q2 := by omega
  rw [h1, h2]

/-- Writing an entry keeps RAST's canonical form. -/
theorem Raster.wf_write {r : Raster} {xy : Coord} (v : RGB) (hr : r.wf = true)
    (h : xy.InRaster) : (r.write xy v).wf = true :=
  cellsWithin_cellPut r v hr (Nat.zero_le _) (rasterIndex_lt h)

theorem Raster.written_write_self (r : Raster) (xy : Coord) (v : RGB) :
    (r.write xy v).written xy = some v :=
  cellGet_cellPut_self r _ v

theorem Raster.written_write_ne (r : Raster) {p q : Coord} (v : RGB)
    (hp : p.InRaster) (hq : q.InRaster) (h : q ≠ p) :
    (r.write p v).written q = r.written q :=
  cellGet_cellPut_ne r v fun he => h (rasterIndex_injective hq hp he)

@[simp] theorem Raster.view_length (r : Raster) (d : Nat) : (r.view d).length = 16384 := by
  simp [Raster.view, Config.RASTER_PIXELS]

theorem Raster.view_getElem (r : Raster) (d : Nat) {i : Nat} (h : i < (r.view d).length) :
    (r.view d)[i] = r.entry d i := by
  simp [Raster.view]

/-! The next operation. -/

theorem fetch_empty {s : State} (h : s.queue = []) :
    fetch s = if s.phase = .run then .operation .step s else .waiting := by
  simp [fetch, h]

theorem fetch_decoded {s : State} {i : Instr} {rest : List Byte}
    (h : decode s.queue = .ok (i, rest)) : fetch s = .operation i (s.setQueue rest) := by
  unfold fetch
  cases hq : s.queue with
  | nil => simp [hq, decode] at h
  | cons b bs => rw [hq] at h; simp [h]

end Sys2Proof.Machine
end

