-- ==== Sys2Proof/Laws/Stages.lean ====
section
/-!
SUPPORT. What the stage functions compute, said once: the bits of the interleaved word, the pixel
indices of a row, a tile and a block, the coordinate of a flat position, a composed raster.
-/
namespace Sys2Proof.Machine

/-! The interleaver (R90). -/

theorem planeBit_shift_getLsbD (b : Byte) (j k n : Nat) (hn : n < 16) :
    (planeBit b j <<< k).getLsbD n = (decide (n = k) && b.getLsbD j) := by
  unfold planeBit
  rcases Nat.lt_trichotomy n k with h | h | h
  · have : n ≠ k := by omega
    simp [h, this]
  · subst h
    cases b.getLsbD j <;> simp [hn]
  · have h1 : n ≠ k := by omega
    have h2 : n - k ≠ 0 := by omega
    have h3 : ¬ n < k := by omega
    cases b.getLsbD j <;> simp [hn, h1, h2, h3]

theorem ilvColumn_getLsbD (low high : Byte) (w : RowWord) (c n : Nat) (hn : n < 16) :
    (ilvColumn low high w c).getLsbD n =
      (w.getLsbD n || (decide (n = 15 - 2 * c) && high.getLsbD (7 - c)) ||
        (decide (n = 14 - 2 * c) && low.getLsbD (7 - c))) := by
  simp only [ilvColumn, BitVec.getLsbD_or, planeBit_shift_getLsbD _ _ _ _ hn]

theorem range_eight : List.range 8 = [0, 1, 2, 3, 4, 5, 6, 7] := by decide

/-- The high-plane bit of column `c` (R90). -/
theorem ilv_getLsbD_high (low high : Byte) {c : Nat} (hc : c < 8) :
    (ilv low high).getLsbD (15 - 2 * c) = high.getLsbD (7 - c) := by
  simp only [ilv, range_eight, List.foldl]
  interval_cases c <;>
    simp (disch := decide) only [ilvColumn_getLsbD, BitVec.getLsbD_zero] <;> simp

/-- The low-plane bit of column `c` (R90). -/
theorem ilv_getLsbD_low (low high : Byte) {c : Nat} (hc : c < 8) :
    (ilv low high).getLsbD (14 - 2 * c) = low.getLsbD (7 - c) := by
  simp only [ilv, range_eight, List.foldl]
  interval_cases c <;>
    simp (disch := decide) only [ilvColumn_getLsbD, BitVec.getLsbD_zero] <;> simp

/-! The pattern decoder. -/

theorem pix_toNat (w : RowWord) (c : Column) :
    (pix w c).toNat = w.toNat / 2 ^ (14 - 2 * c.toNat) % 4 := by
  unfold pix
  rw [BitVec.toNat_setWidth, BitVec.toNat_and, BitVec.toNat_ushiftRight, Nat.shiftRight_eq_div_pow]
  rw [show (3#16).toNat = 2 ^ 2 - 1 by rfl, Nat.and_two_pow_sub_one_eq_mod]
  omega

theorem pix_getLsbD (w : RowWord) (c : Column) {b : Nat} (hb : b < 2) :
    (pix w c).getLsbD b = w.getLsbD (14 - 2 * c.toNat + b) := by
  unfold pix
  have h3 : (3#16).getLsbD b = true := by interval_cases b <;> rfl
  rw [BitVec.getLsbD_setWidth, BitVec.getLsbD_and, BitVec.getLsbD_ushiftRight, h3]
  simp [hb]

theorem twoBits_toNat (n : PixelIdx) :
    n.toNat = 2 * (n.getLsbD 1).toNat + (n.getLsbD 0).toNat := by
  revert n; decide

/-- The pixel index of column `c` of a row: the high-plane bit and the low-plane bit (R101). -/
theorem pix_ilv (low high : Byte) (c : Column) :
    (pix (ilv low high) c).toNat =
      2 * (high.getLsbD (7 - c.toNat)).toNat + (low.getLsbD (7 - c.toNat)).toNat := by
  have hc : c.toNat < 8 := c.isLt
  rw [twoBits_toNat, pix_getLsbD _ _ (by decide), pix_getLsbD _ _ (by decide),
    show 14 - 2 * c.toNat + 1 = 15 - 2 * c.toNat by omega, Nat.add_zero,
    ilv_getLsbD_high _ _ hc, ilv_getLsbD_low _ _ hc]

/-- An element of a concatenation of equally long lists. -/
theorem flatMap_range_getElem? {α : Type} (f : Nat → List α) (m : Nat)
    (hf : ∀ i, (f i).length = m) :
    ∀ (n i j : Nat), i < n → j < m → ((List.range n).flatMap f)[m * i + j]? = (f i)[j]? := by
  intro n
  induction n with
  | zero => intro i j hi; omega
  | succ n ih =>
    intro i j hi hj
    have hlen : ((List.range n).flatMap f).length = m * n := by
      simp [List.length_flatMap, hf, Nat.mul_comm]
    rw [List.range_succ, List.flatMap_append]
    by_cases h : i < n
    · rw [List.getElem?_append_left]
      · exact ih i j h hj
      · rw [hlen]
        calc m * i + j < m * i + m := by omega
          _ = m * (i + 1) := by ring
          _ ≤ m * n := Nat.mul_le_mul_left m h
    · have hin : i = n := by omega
      subst hin
      rw [List.getElem?_append_right (by rw [hlen]; omega), hlen]
      simp

theorem flatMap_range_length {α : Type} (f : Nat → List α) (m n : Nat)
    (hf : ∀ i, (f i).length = m) : ((List.range n).flatMap f).length = m * n := by
  simp [List.length_flatMap, hf, Nat.mul_comm]

@[simp] theorem rowdec_length (low high : Byte) : (rowdec low high).length = 8 := by
  simp [rowdec]

theorem rowdec_getElem? (low high : Byte) {c : Nat} (hc : c < 8) :
    (rowdec low high)[c]? = some (pix (ilv low high) (BitVec.ofNat 3 c)) := by
  simp [rowdec, hc]

@[simp] theorem tdec_length (b : List Byte) : (tdec b).length = 64 := by
  unfold tdec
  rw [flatMap_range_length _ 8 8 (fun _ => rowdec_length _ _)]

/-- Row `r` of a tile (R102). -/
theorem tdec_getElem? (b : List Byte) {r c : Nat} (hr : r < 8) (hc : c < 8) :
    (tdec b)[8 * r + c]? = (rowdec (b.getD r 0#8) (b.getD (8 + r) 0#8))[c]? :=
  flatMap_range_getElem? _ 8 (fun _ => rowdec_length _ _) 8 r c hr hc

@[simp] theorem decodeTiles_length (block : List Byte) :
    (decodeTiles block).length = 64 * (block.length / 16) :=
  flatMap_range_length _ 64 _ (fun _ => tdec_length _)

/-- Pixel `k` of tile `t` (R103). -/
theorem decodeTiles_getElem? (block : List Byte) {t k : Nat} (ht : t < block.length / 16)
    (hk : k < 64) : (decodeTiles block)[64 * t + k]? = (tdec (tileBytes block t))[k]? :=
  flatMap_range_getElem? _ 64 (fun _ => tdec_length _) _ t k ht hk

theorem tileBytes_getD (block : List Byte) {t j : Nat} (hj : j < 16) :
    (tileBytes block t).getD j 0#8 = block.getD (16 * t + j) 0#8 := by
  simp [tileBytes, Config.TILE_BYTES, List.getD_eq_getElem?_getD, hj, List.getElem?_drop]

/-- The closed form of the decoder (R108): flat position `k` of the indices. -/
theorem decodeTiles_closed (block : List Byte) {k : Nat} (hk : k < 64 * (block.length / 16)) :
    (decodeTiles block)[k]? =
      some (pix (ilv (block.getD (lowAddress k) 0#8) (block.getD (highAddress k) 0#8))
        (columnOf k)) := by
  have hsplit : k = 64 * (k / 64) + k % 64 := by omega
  have hq : k % 64 = 8 * (k % 64 / 8) + k % 64 % 8 := by omega
  have ht : k / 64 < block.length / 16 := by omega
  conv_lhs => rw [hsplit]
  rw [decodeTiles_getElem? _ ht (by omega)]
  conv_lhs => rw [hq]
  rw [tdec_getElem? _ (by omega) (by omega), rowdec_getElem? _ _ (by omega),
    tileBytes_getD _ (by omega), tileBytes_getD _ (by omega)]
  have hc : BitVec.ofNat 3 (k % 64 % 8) = columnOf k := by
    simp only [columnOf, Config.TILE_DIM]
    rw [show k % 64 % 8 = k % 8 by omega]
  rw [hc]
  simp only [lowAddress, highAddress, rowOf, tileOf, Config.TILE_BYTES, Config.TILE_PIXELS,
    Config.TILE_DIM, Nat.add_assoc]

/-- The decoder is tile-local and keeps the order (R106). -/
theorem decodeTiles_append (a b : List Byte) (ha : a.length % 16 = 0) :
    decodeTiles (a ++ b) = decodeTiles a ++ decodeTiles b := by
  apply List.ext_getElem?
  intro k
  have hl : (a ++ b).length / 16 = a.length / 16 + b.length / 16 := by
    rw [List.length_append]; omega
  by_cases h1 : k < 64 * (a.length / 16)
  · rw [List.getElem?_append_left (by simpa using h1),
      decodeTiles_closed _ (by rw [hl]; omega), decodeTiles_closed _ h1]
    have hlow : lowAddress k < a.length := by
      simp only [lowAddress, rowOf, tileOf, Config.TILE_BYTES, Config.TILE_PIXELS, Config.TILE_DIM]
      omega
    have hhigh : highAddress k < a.length := by
      simp only [highAddress, rowOf, tileOf, Config.TILE_BYTES, Config.TILE_PIXELS, Config.TILE_DIM]
      omega
    simp [List.getD_eq_getElem?_getD, List.getElem?_append_left, hlow, hhigh]
  · rw [List.getElem?_append_right (by simpa using h1), decodeTiles_length]
    by_cases h2 : k < 64 * (a.length / 16 + b.length / 16)
    · rw [decodeTiles_closed _ (by rw [hl]; exact h2), decodeTiles_closed _ (by omega)]
      have e1 : lowAddress k = a.length + lowAddress (k - 64 * (a.length / 16)) := by
        simp only [lowAddress, rowOf, tileOf, Config.TILE_BYTES, Config.TILE_PIXELS,
          Config.TILE_DIM]
        omega
      have e2 : highAddress k = a.length + highAddress (k - 64 * (a.length / 16)) := by
        simp only [highAddress, rowOf, tileOf, Config.TILE_BYTES, Config.TILE_PIXELS,
          Config.TILE_DIM]
        omega
      have e3 : columnOf k = columnOf (k - 64 * (a.length / 16)) := by
        simp only [columnOf, Config.TILE_DIM]
        rw [show (k - 64 * (a.length / 16)) % 8 = k % 8 by omega]
      rw [e1, e2, e3]
      simp only [List.getD_eq_getElem?_getD, List.getElem?_append_right (Nat.le_add_right _ _),
        Nat.add_sub_cancel_left]
    · rw [List.getElem?_eq_none (by rw [decodeTiles_length, hl]; omega),
        List.getElem?_eq_none (by rw [decodeTiles_length]; omega)]

/-! The compositor. -/

/-- A flat position of the grid has a coordinate in the raster (R125). -/
theorem coordOf_inRaster {i : Nat} (h : i < 16384) : (coordOf 16 i).InRaster := by
  simp only [Coord.InRaster, coordOf, tileOf, Config.TILE_PIXELS, Config.TILE_DIM]
  omega

/-- The inverse of PLACE (R128). -/
theorem coordOf_inverse (i : Nat) :
    64 * ((coordOf 16 i).y / 8 * 16 + (coordOf 16 i).x / 8) + 8 * ((coordOf 16 i).y % 8) +
      (coordOf 16 i).x % 8 = i := by
  simp only [coordOf, tileOf, Config.TILE_PIXELS, Config.TILE_DIM]
  omega

/-- PLACE is injective (R129). -/
theorem coordOf_injective {i j : Nat} (h : coordOf 16 i = coordOf 16 j) : i = j := by
  rw [← coordOf_inverse i, ← coordOf_inverse j, h]

/-- PLACE is onto the raster (R128, R130). -/
theorem coordOf_surjective {xy : Coord} (h : xy.InRaster) :
    coordOf 16 (64 * (xy.y / 8 * 16 + xy.x / 8) + 8 * (xy.y % 8) + xy.x % 8) = xy := by
  obtain ⟨x, y⟩ := xy
  simp only [Coord.InRaster] at h
  simp only [coordOf, tileOf, Config.TILE_PIXELS, Config.TILE_DIM, Coord.mk.injEq]
  omega

/-- Composing keeps RAST's canonical form. -/
theorem composeFrom_wf (vs : List RGB) :
    ∀ (i : Nat) (r : Raster), r.wf = true → i + vs.length ≤ 16384 →
      (composeFrom 16 i vs r).wf = true := by
  induction vs with
  | nil => intro i r hr _; exact hr
  | cons v vs ih =>
    intro i r hr hl
    simp only [List.length_cons] at hl
    exact ih (i + 1) _ (Raster.wf_write v hr (coordOf_inRaster (by omega))) (by omega)

/-- An entry that no position from `i` on is placed at stays as it was (R127). -/
theorem composeFrom_other (vs : List RGB) :
    ∀ (i : Nat) (r : Raster) {xy : Coord}, xy.InRaster → i + vs.length ≤ 16384 →
      (∀ j, i ≤ j → j < i + vs.length → coordOf 16 j ≠ xy) →
      (composeFrom 16 i vs r).written xy = r.written xy := by
  induction vs with
  | nil => intros; rfl
  | cons v vs ih =>
    intro i r xy hxy hl hne
    simp only [List.length_cons] at hl hne
    unfold composeFrom
    rw [ih (i + 1) _ hxy (by omega) fun j h1 h2 => hne j (by omega) (by omega)]
    exact Raster.written_write_ne r v (coordOf_inRaster (by omega)) hxy
      (Ne.symm (hne i le_rfl (by omega)))

/-- Position `i + j` holds colour `j` (R127). -/
theorem composeFrom_placed (vs : List RGB) :
    ∀ (i j : Nat) (r : Raster), i + vs.length ≤ 16384 → j < vs.length →
      (composeFrom 16 i vs r).written (coordOf 16 (i + j)) = vs[j]? := by
  induction vs with
  | nil => intro i j r _ hj; simp at hj
  | cons v vs ih =>
    intro i j r hl hj
    simp only [List.length_cons] at hl hj
    unfold composeFrom
    cases j with
    | zero =>
      rw [Nat.add_zero, composeFrom_other vs (i + 1) _ (coordOf_inRaster (by omega)) (by omega)]
      · simpa using Raster.written_write_self r (coordOf 16 i) v
      · intro j h1 _ he
        have := coordOf_injective he
        omega
    | succ j =>
      have := ih (i + 1) j (r.write (coordOf 16 i) v) (by omega) (by omega)
      rw [show i + 1 + j = i + (j + 1) by omega] at this
      simpa using this

/-- Composing a longer sequence goes on where the shorter one ended. -/
theorem composeFrom_append (tw : Nat) (vs ws : List RGB) :
    ∀ (i : Nat) (r : Raster),
      composeFrom tw i (vs ++ ws) r = composeFrom tw (i + vs.length) ws (composeFrom tw i vs r) := by
  induction vs with
  | nil => intro i r; rfl
  | cons v vs ih =>
    intro i r
    simp only [List.cons_append, composeFrom, List.length_cons]
    rw [ih, show i + 1 + vs.length = i + (vs.length + 1) by omega]

end Sys2Proof.Machine
end

