-- ==== Sys2Proof/Laws/Exec.lean ====
section
/-!
SUPPORT. Everything an operation can do when it answers a next state, said once: the transitions of
the machine, and the lemma that `exec` makes no other.
-/
namespace Sys2Proof.Machine

open Sys2Proof.Safety

/-- The stage operations that hand over a value, or their error, and write nothing else. -/
def handsOver : Instr → Bool
  | .tokenize _ | .hextok _ | .hexparse _ | .ilv _ _ | .pix _ _ | .rowdec _ _ | .tdec _
  | .ptdec _ | .paltok _ | .palparse _ | .palmap _ | .palmapseq _ | .place _ => true
  | _ => false

/-- The stage operations that have an error among their outputs. -/
def canFail : Instr → Bool
  | .hextok _ | .hexparse _ | .ptdec _ | .paltok _ | .palparse _ | .place _ | .compose _ => true
  | _ => false

/-- The error an operation takes, entering ERROR, and its offending value (R161 to R165): no other
operation than H_SETPAL, H_LOAD and H_START does (R23). -/
def Takes : Instr → State → ErrKind → ErrInfo → Prop
  | .hSetpal text, s, e, info => palparse s.cfg text = .raised e info
  | .hLoad text, s, e, info => hexparse s.cfg.ws text = .raised e info
  | .hStart, s, e, info =>
    (e = .malformedTile ∧ s.len % 16 ≠ 0 ∧ info = .num (s.len % 16)) ∨
    (e = .formatViolation ∧ s.len % 16 = 0 ∧ s.cfg.strictLen = true ∧ s.len ≠ 4096 ∧
      info = .num s.len) ∨
    (e = .rasterOverflow ∧ s.len % 16 = 0 ∧ 256 < s.nt ∧ info = .num s.nt)
  | _, _, _, _ => False

/-- The operations on their own that read PAL and MPAL. -/
def readsPalette : Instr → Bool
  | .palmap _ | .palmapseq _ => true
  | _ => false

/-- The state an error of an operation is taken from: H_START has written LENW. -/
def raiseFrom (i : Instr) (s : State) : State :=
  match i with
  | .hStart => s.setLenw (lenwOf s.len)
  | _ => s

/-- The transitions of the machine. -/
inductive Transition : Instr → State → State → Prop
  | value {i s r} (h : handsOver i = true)
      (he : s.phase = .error → canFail i = false)
      (hm : readsPalette i = true → s.phase = .run) :
      Transition i s (s.setOut r)
  | trap {i s e info} (h : Takes i s e info) (hp : s.phase = .idle)
      (hr : recorded e.code info = true) : Transition i s (trapEntry e info (raiseFrom i s))
  | compose {s rgb} (hp : s.phase = .run) (h16 : rgb.length % 64 = 0)
      (hcap : rgb.length / 64 ≤ 256) :
      Transition (.compose rgb) s ((s.setRast (composeFrom 16 0 rgb s.rast)).setOut .nothing)
  | composeFails {s rgb} (he : s.phase ≠ .error) (h16 : rgb.length % 64 = 0)
      (hcap : 256 < rgb.length / 64) :
      Transition (.compose rgb) s (s.setOut (.error .rasterOverflow (.num (rgb.length / 64))))
  | reset {s} (hp : s.phase ≠ .run) : Transition .hReset s s.resetBlock
  | setpal {s text p} (hp : s.phase = .idle) (h : palparse s.cfg text = .value p) :
      Transition (.hSetpal text) s ((s.setPal p).setOut .nothing)
  | loadb {s bs} (hp : s.phase = .idle) (hc : withinCapacity s.cfg.lenMax bs.length = true) :
      Transition (.hLoadb bs) s
        ((s.setBlock (Memory.ofBytes bs) bs.length).setOut .nothing)
  | load {s text bs} (hp : s.phase = .idle) (h : hexparse s.cfg.ws text = .value bs)
      (hc : withinCapacity s.cfg.lenMax bs.length = true) :
      Transition (.hLoad text) s ((s.setBlock (Memory.ofBytes bs) bs.length).setOut .nothing)
  | start {s} (hp : s.phase = .idle) (h16 : s.len % 16 = 0)
      (hs : ¬ (s.cfg.strictLen = true ∧ s.len ≠ 4096)) (hn : s.nt ≤ 256) :
      Transition .hStart s
        ((((s.setLenw (lenwOf s.len)).setK 0).setPhase .run).setOut .nothing)
  | run {s} (hp : s.phase = .run) (h16 : s.len % 16 = 0) (hn : s.len / 16 ≤ 256) :
      Transition .run s
        ((((s.setRast (composeFrom 16 0 (s.palmapseq (decodeTiles s.block)) s.rast)).setK
          (64 * (s.len / 16))).setPhase .done).setOut .nothing)
  | finish {s} (hp : s.phase = .run) (hk : s.k = 64 * s.nt) :
      Transition .step s ((s.setPhase .done).setOut .nothing)
  | pixel {s low high} (hp : s.phase = .run) (hk : s.k ≠ 64 * s.nt)
      (hl : s.ptRead (lowAddress s.k) = some low) (hh : s.ptRead (highAddress s.k) = some high)
      (ht : s.k < 16384) :
      Transition .step s
        (((s.setRast (s.rast.write (coordOf 16 s.k)
          (s.palmap (pix (ilv low high) (columnOf s.k))))).setK (s.k + 1)).setOut .nothing)
  | status {s} : Transition .hStatus s (s.drawn.setOut (.status s.status))
  | read {s} (hp : s.phase = .done) :
      Transition .hRead s (s.drawn.setOut (.raster (s.rast.view s.draws)))

/-! The errors a stage function raises carry their kind of offending value (R160). -/

theorem tokenize_ne_raised (ws : List Char) (text : Text) (e : ErrKind) (info : ErrInfo) :
    tokenize ws text ≠ .raised e info := by
  unfold tokenize; split <;> simp

theorem hextok_raised {tok : Token} {e : ErrKind} {info : ErrInfo}
    (h : hextok tok = .raised e info) : e = .parseError ∧ info = .token tok := by
  unfold hextok at h; split at h <;> simp_all

theorem hextokAll_raised (toks : List Token) {e : ErrKind} {info : ErrInfo}
    (h : hextokAll toks = .raised e info) : e = .parseError ∧ ∃ tok, info = .token tok := by
  induction toks with
  | nil => simp [hextokAll] at h
  | cons tok toks ih =>
    simp only [hextokAll, Answer.andThen_eq_raised] at h
    rcases h with h | ⟨b, _, h | ⟨bs, _, h⟩⟩
    · exact ⟨(hextok_raised h).1, tok, (hextok_raised h).2⟩
    · exact ih h
    · simp at h

theorem hexparse_raised {ws : List Char} {text : Text} {e : ErrKind} {info : ErrInfo}
    (h : hexparse ws text = .raised e info) : e = .parseError ∧ ∃ tok, info = .token tok := by
  simp only [hexparse, Answer.andThen_eq_raised] at h
  rcases h with h | ⟨toks, _, h⟩
  · exact absurd h (tokenize_ne_raised _ _ _ _)
  · exact hextokAll_raised toks h

theorem paltok_raised {tok : Token} {e : ErrKind} {info : ErrInfo}
    (h : paltok tok = .raised e info) : e = .invalidPaletteSlot ∧ info = .token tok := by
  unfold paltok at h; split at h <;> simp_all

theorem palSlot_raised {tok : Token} {e : ErrKind} {info : ErrInfo}
    (h : palSlot tok = .raised e info) : e = .invalidPaletteSlot ∧ info = .token tok := by
  simp only [palSlot, Answer.andThen_eq_raised] at h
  rcases h with h | ⟨v, _, h⟩
  · exact paltok_raised h
  · split at h <;> simp_all

theorem palSlots_raised (toks : List Token) {e : ErrKind} {info : ErrInfo}
    (h : palSlots toks = .raised e info) :
    e = .invalidPaletteSlot ∧ ∃ tok, info = .token tok := by
  induction toks with
  | nil => simp [palSlots] at h
  | cons tok toks ih =>
    simp only [palSlots, Answer.andThen_eq_raised] at h
    rcases h with h | ⟨b, _, h | ⟨bs, _, h⟩⟩
    · exact ⟨(palSlot_raised h).1, tok, (palSlot_raised h).2⟩
    · exact ih h
    · simp at h

theorem palOfTokens_raised {policy : Config.PalExtraPolicy} {toks : List Token} {e : ErrKind}
    {info : ErrInfo} (h : palOfTokens policy toks = .raised e info) :
    e = .invalidPaletteSlot ∧ ∃ tok, info = .token tok := by
  unfold palOfTokens at h
  split at h
  · simp only [Answer.andThen_eq_raised] at h
    rcases h with h | ⟨_, _, h⟩
    · exact palSlots_raised _ h
    · simp at h
  · cases policy with
    | refuse => simp at h
    | error =>
      simp only [Answer.andThen_eq_raised] at h
      rcases h with h | ⟨_, _, h⟩
      · exact palSlots_raised _ h
      · simp only [Answer.raised.injEq] at h
        exact ⟨h.1.symm, _, h.2.symm⟩
    | ignore =>
      simp only [Answer.andThen_eq_raised] at h
      rcases h with h | ⟨_, _, h⟩
      · exact palSlots_raised _ h
      · simp at h

theorem palparse_raised {cfg : Config.Params} {text : Text} {e : ErrKind} {info : ErrInfo}
    (h : palparse cfg text = .raised e info) :
    e = .invalidPaletteSlot ∧ ∃ tok, info = .token tok := by
  simp only [palparse, Answer.andThen_eq_raised] at h
  rcases h with h | ⟨toks, _, h⟩
  · exact absurd h (tokenize_ne_raised _ _ _ _)
  · exact palOfTokens_raised h

theorem ptdec_raised {block : List Byte} {e : ErrKind} {info : ErrInfo}
    (h : ptdec block = .raised e info) :
    block.length % 16 ≠ 0 ∧ e = .malformedTile ∧ info = .num (block.length % 16) := by
  unfold ptdec at h
  split at h
  · rename_i hne
    simp only [Answer.raised.injEq] at h
    exact ⟨hne, h.1.symm, h.2.symm⟩
  · simp at h

theorem ptdec_value {block : List Byte} {idx : List PixelIdx} :
    ptdec block = .value idx ↔ block.length % 16 = 0 ∧ idx = decodeTiles block := by
  unfold ptdec
  split
  · rename_i h; simpa [Config.TILE_BYTES] using fun h' => absurd h' h
  · rename_i h; simp only [ne_eq, not_not] at h; simp [Config.TILE_BYTES] at h; simp [h, eq_comm]

theorem place_value {s : State} {i : Nat} {xy : Coord} :
    s.place i = .value xy ↔ i < 16384 ∧ xy = coordOf 16 i := by
  unfold State.place
  split
  · rename_i h
    simp only [State.tw, State.th, Config.TW, Config.TH, tileOf, Config.TILE_PIXELS] at h
    simp
    omega
  · rename_i h
    simp only [State.tw, State.th, Config.TW, Config.TH, tileOf, Config.TILE_PIXELS] at h
    have hi : i < 16384 := by omega
    simp [hi, eq_comm, State.tw, Config.TW]

theorem place_raised {s : State} {i : Nat} {e : ErrKind} {info : ErrInfo}
    (h : s.place i = .raised e info) :
    16384 ≤ i ∧ e = .rasterOverflow ∧ info = .num (257 + Config.freeOverflow i) := by
  unfold State.place at h
  split at h
  · rename_i hle
    simp only [State.tw, State.th, Config.TW, Config.TH, tileOf, Config.TILE_PIXELS] at hle
    simp only [Answer.raised.injEq] at h
    exact ⟨by omega, h.1.symm, h.2.symm⟩
  · simp at h

theorem place_ne_refused {s : State} {i : Nat} {r : Refusal} : s.place i ≠ .refused r := by
  unfold State.place; split <;> simp

theorem compose_value {s : State} {rgb : List RGB} {r : Raster} :
    s.compose rgb = .value r ↔
      rgb.length % 64 = 0 ∧ rgb.length / 64 ≤ 256 ∧ r = composeFrom 16 0 rgb s.rast := by
  simp only [State.compose, State.tw, State.th, Config.TW, Config.TH, Config.TILE_PIXELS]
  by_cases h1 : rgb.length % 64 = 0
  · by_cases h2 : 256 < rgb.length / 64
    · have h3 : ¬ rgb.length / 64 ≤ 256 := by omega
      simp [h1, h2, h3]
    · have h3 : rgb.length / 64 ≤ 256 := by omega
      simp [h1, h2, h3, eq_comm]
  · simp [h1]

theorem compose_raised {s : State} {rgb : List RGB} {e : ErrKind} {info : ErrInfo} :
    s.compose rgb = .raised e info ↔
      rgb.length % 64 = 0 ∧ 256 < rgb.length / 64 ∧ e = .rasterOverflow ∧
        info = .num (rgb.length / 64) := by
  simp only [State.compose, State.tw, State.th, Config.TW, Config.TH, Config.TILE_PIXELS]
  by_cases h1 : rgb.length % 64 = 0
  · by_cases h2 : 256 < rgb.length / 64 <;> simp [h1, h2, eq_comm]
  · simp [h1]

/-- `exec` makes no next state but the transitions. -/
theorem exec_transition {i : Instr} {s t : State} (h : exec i s = .next t) :
    Transition i s t := by
  have trapOf : ∀ {i : Instr} {e info}, Takes i s e info → s.phase = .idle →
      recorded e.code info = true → raiseFrom i s = s →
      Transition i s (trapEntry e info s) := by
    intro i e info h1 h2 h3 h4
    have := Transition.trap h1 h2 h3
    rwa [h4] at this
  have tokenInfo : ∀ {e : ErrKind} {info : ErrInfo},
      (e = .parseError ∨ e = .invalidPaletteSlot) → (∃ tok, info = .token tok) →
      recorded e.code info = true := by
    rintro e info (rfl | rfl) ⟨tok, rfl⟩ <;> rfl
  cases i with
  | tokenize text =>
    simp only [exec, execTokenize, onItsOwn_next, handOver_next] at h
    rcases h with ⟨v, _, rfl⟩ | ⟨e, info, _, rfl⟩ <;>
      exact .value rfl (fun _ => rfl) (by simp [readsPalette])
  | hextok tok =>
    simp only [exec, execHextok, notIn_next, onItsOwn_next, handOver_next] at h
    obtain ⟨hp, ⟨v, _, rfl⟩ | ⟨e, info, _, rfl⟩⟩ := h <;>
      exact .value rfl (fun he => absurd he hp) (by simp [readsPalette])
  | hexparse text =>
    simp only [exec, execHexparse, notIn_next, onItsOwn_next, handOver_next] at h
    obtain ⟨hp, ⟨v, _, rfl⟩ | ⟨e, info, _, rfl⟩⟩ := h <;>
      exact .value rfl (fun he => absurd he hp) (by simp [readsPalette])
  | ilv low high =>
    simp only [exec, execIlv, handOver_next] at h
    subst h
    exact .value rfl (fun _ => rfl) (by simp [readsPalette])
  | pix w c =>
    simp only [exec, execPix, handOver_next] at h
    subst h
    exact .value rfl (fun _ => rfl) (by simp [readsPalette])
  | rowdec low high =>
    simp only [exec, execRowdec, handOver_next] at h
    subst h
    exact .value rfl (fun _ => rfl) (by simp [readsPalette])
  | tdec tile =>
    simp only [exec, execTdec] at h
    split at h
    · rw [handOver_next] at h
      subst h
      exact .value rfl (fun _ => rfl) (by simp [readsPalette])
    · simp at h
  | ptdec block =>
    simp only [exec, execPtdec, notIn_next, onItsOwn_next, handOver_next] at h
    obtain ⟨hp, ⟨v, _, rfl⟩ | ⟨e, info, _, rfl⟩⟩ := h <;>
      exact .value rfl (fun he => absurd he hp) (by simp [readsPalette])
  | paltok tok =>
    simp only [exec, execPaltok, notIn_next, onItsOwn_next, handOver_next] at h
    obtain ⟨hp, ⟨v, _, rfl⟩ | ⟨e, info, _, rfl⟩⟩ := h <;>
      exact .value rfl (fun he => absurd he hp) (by simp [readsPalette])
  | palparse text =>
    simp only [exec, execPalparse, notIn_next, onItsOwn_next, handOver_next] at h
    obtain ⟨hp, ⟨v, _, rfl⟩ | ⟨e, info, _, rfl⟩⟩ := h <;>
      exact .value rfl (fun he => absurd he hp) (by simp [readsPalette])
  | palmap n =>
    simp only [exec, execPalmap, onlyIn_next, handOver_next] at h
    obtain ⟨hp, rfl⟩ := h
    exact .value rfl (fun he => by simp [hp] at he) (fun _ => hp)
  | palmapseq ns =>
    simp only [exec, execPalmapseq, onlyIn_next, handOver_next] at h
    obtain ⟨hp, rfl⟩ := h
    exact .value rfl (fun he => by simp [hp] at he) (fun _ => hp)
  | place n =>
    simp only [exec, execPlace, notIn_next, onItsOwn_next, handOver_next] at h
    obtain ⟨hp, ⟨v, _, rfl⟩ | ⟨e, info, _, rfl⟩⟩ := h <;>
      exact .value rfl (fun he => absurd he hp) (by simp [readsPalette])
  | compose rgb =>
    simp only [exec, execCompose, notIn_next, onItsOwn_next, onlyIn_next, handOver_next] at h
    obtain ⟨hp, ⟨r, h, hr, rfl⟩ | ⟨e, info, h, rfl⟩⟩ := h
    · obtain ⟨h16, hcap, rfl⟩ := compose_value.1 h
      exact .compose hr h16 hcap
    · obtain ⟨h16, hcap, rfl, rfl⟩ := compose_raised.1 h
      exact .composeFails hp h16 hcap
  | hReset =>
    simp only [exec, execHReset, notIn_next, Host.Outcome.next.injEq] at h
    obtain ⟨hp, rfl⟩ := h
    exact .reset hp
  | hSetpal text =>
    simp only [exec, execHSetpal, onlyIn_next, conclude_next, handOver_next] at h
    obtain ⟨hp, ⟨p, h, rfl⟩ | ⟨e, info, h, _, rfl⟩⟩ := h
    · exact .setpal hp h
    · exact trapOf h hp (tokenInfo (.inr (palparse_raised h).1) (palparse_raised h).2) rfl
  | hLoadb bytes =>
    simp only [exec, execHLoadb, onlyIn_next, loadBlock] at h
    obtain ⟨hp, h⟩ := h
    split at h
    · rename_i hc
      rw [handOver_next] at h
      subst h
      exact .loadb hp hc
    · simp at h
  | hLoad text =>
    simp only [exec, execHLoad, onlyIn_next, conclude_next, loadBlock] at h
    obtain ⟨hp, ⟨bs, h, hl⟩ | ⟨e, info, h, _, rfl⟩⟩ := h
    · split at hl
      · rename_i hc
        rw [handOver_next] at hl
        subst hl
        exact .load hp h hc
      · simp at hl
    · exact trapOf h hp (tokenInfo (.inl (hexparse_raised h).1) (hexparse_raised h).2) rfl
  | hStart =>
    simp only [exec, execHStart, onlyIn_next, startRun, Config.TILE_BYTES, Config.CANON_LEN,
      State.tw, State.th, Config.TW, Config.TH] at h
    obtain ⟨hp, h⟩ := h
    by_cases h1 : s.len % 16 = 0
    · by_cases h2 : s.cfg.strictLen = true ∧ s.len ≠ 4096
      · simp only [State.setLenw_len, State.setLenw_cfg, h1, h2.1, h2.2, ne_eq, not_true,
          not_false_eq_true, if_false, if_true, and_self, raiseError_next] at h
        obtain ⟨_, rfl⟩ := h
        refine Transition.trap (i := .hStart) (.inr (.inl ⟨rfl, h1, h2.1, h2.2, rfl⟩)) hp ?_
        simp only [ErrKind.code, recorded, decide_eq_true_eq]
        exact ⟨h1, h2.2⟩
      · by_cases h3 : 16 * 16 < s.nt
        · simp only [State.setLenw_len, State.setLenw_cfg, h1, h2, h3, State.nt_setLenw, ne_eq,
            not_true, if_false, if_true, raiseError_next] at h
          obtain ⟨_, rfl⟩ := h
          refine Transition.trap (i := .hStart) (.inr (.inr ⟨rfl, h1, h3, rfl⟩)) hp ?_
          simp only [ErrKind.code, recorded, decide_eq_true_eq]
          omega
        · simp only [State.setLenw_len, State.setLenw_cfg, h1, h2, h3, State.nt_setLenw, ne_eq,
            not_true, if_false, handOver_next] at h
          subst h
          exact .start hp h1 h2 (by omega)
    · simp only [State.setLenw_len, h1, ne_eq, not_false_eq_true, if_true, raiseError_next] at h
      obtain ⟨_, rfl⟩ := h
      refine Transition.trap (i := .hStart) (.inl ⟨rfl, h1, rfl⟩) hp ?_
      simp only [ErrKind.code, recorded, decide_eq_true_eq]
      omega
  | run =>
    simp only [exec, execRun, onlyIn_next, conclude_next, handOver_next] at h
    obtain ⟨hp, ⟨idx, h, ⟨r, hr, rfl⟩ | ⟨_, _, _, hi, _⟩⟩ | ⟨_, _, _, hi, _⟩⟩ := h
    · obtain ⟨h16, rfl⟩ := ptdec_value.1 h
      obtain ⟨_, hcap, rfl⟩ := compose_value.1 hr
      have hlen : (s.palmapseq (decodeTiles s.block)).length = 64 * (s.len / 16) := by
        simp [State.palmapseq]
      rw [hlen] at hcap ⊢
      rw [State.block_length] at h16
      exact .run hp h16 (by omega)
    · rw [hp] at hi; simp at hi
    · rw [hp] at hi; simp at hi
  | step =>
    simp only [exec, execStep, onlyIn_next] at h
    obtain ⟨hp, h⟩ := h
    split at h
    · rename_i hk
      rw [handOver_next] at h
      subst h
      exact .finish hp hk
    · rename_i hk
      unfold pixelStep at h
      split at h
      · simp at h
      · rename_i low hl
        split at h
        · simp at h
        · rename_i high hh
          rw [conclude_next] at h
          rcases h with ⟨xy, hxy, h⟩ | ⟨_, _, _, hi, _⟩
          · rw [handOver_next] at h
            subst h
            obtain ⟨ht, rfl⟩ := place_value.1 hxy
            exact .pixel hp hk hl hh ht
          · rw [hp] at hi; simp at hi
  | hStatus =>
    simp only [exec, execHStatus, handOver_next] at h
    subst h
    exact .status
  | hRead =>
    simp only [exec, execHRead, onlyIn_next, handOver_next] at h
    obtain ⟨hp, rfl⟩ := h
    exact .read hp

end Sys2Proof.Machine
end

