-- ==== Sys2Proof/Laws/PerInstr.lean ====
section
/-!
SUPPORT. Per-operation families: Header says that the serial form of an operation begins with its
place in the table of R71 and that the decoder takes up the operands from that byte.
-/
namespace Sys2Proof.Laws.Header

/-- The first byte of the serial form is the operation's place in the table of R71, one of 23. -/
def Statement (i : Instr) : Prop :=
  ∃ b tail, encode i = b :: tail ∧ b.toNat = opcode i ∧ opcode i < 23

theorem tokenize (text : Text) : Statement (.tokenize text) :=
  ⟨_, _, rfl, rfl, of_decide_eq_true rfl⟩
theorem hextok (tok : Token) : Statement (.hextok tok) := ⟨_, _, rfl, rfl, of_decide_eq_true rfl⟩
theorem hexparse (text : Text) : Statement (.hexparse text) :=
  ⟨_, _, rfl, rfl, of_decide_eq_true rfl⟩
theorem ilv (low high : Byte) : Statement (.ilv low high) := ⟨_, _, rfl, rfl, of_decide_eq_true rfl⟩
theorem pix (w : RowWord) (c : Column) : Statement (.pix w c) :=
  ⟨_, _, rfl, rfl, of_decide_eq_true rfl⟩
theorem rowdec (low high : Byte) : Statement (.rowdec low high) :=
  ⟨_, _, rfl, rfl, of_decide_eq_true rfl⟩
theorem tdec (tile : List Byte) : Statement (.tdec tile) := ⟨_, _, rfl, rfl, of_decide_eq_true rfl⟩
theorem ptdec (block : List Byte) : Statement (.ptdec block) :=
  ⟨_, _, rfl, rfl, of_decide_eq_true rfl⟩
theorem paltok (tok : Token) : Statement (.paltok tok) := ⟨_, _, rfl, rfl, of_decide_eq_true rfl⟩
theorem palparse (text : Text) : Statement (.palparse text) :=
  ⟨_, _, rfl, rfl, of_decide_eq_true rfl⟩
theorem palmap (n : PixelIdx) : Statement (.palmap n) := ⟨_, _, rfl, rfl, of_decide_eq_true rfl⟩
theorem palmapseq (idx : List PixelIdx) : Statement (.palmapseq idx) :=
  ⟨_, _, rfl, rfl, of_decide_eq_true rfl⟩
theorem place (i : Nat) : Statement (.place i) := ⟨_, _, rfl, rfl, of_decide_eq_true rfl⟩
theorem compose (rgb : List RGB) : Statement (.compose rgb) :=
  ⟨_, _, rfl, rfl, of_decide_eq_true rfl⟩
theorem hReset : Statement .hReset := ⟨_, _, rfl, rfl, of_decide_eq_true rfl⟩
theorem hSetpal (text : Text) : Statement (.hSetpal text) := ⟨_, _, rfl, rfl, of_decide_eq_true rfl⟩
theorem hLoadb (bytes : List Byte) : Statement (.hLoadb bytes) :=
  ⟨_, _, rfl, rfl, of_decide_eq_true rfl⟩
theorem hLoad (text : Text) : Statement (.hLoad text) := ⟨_, _, rfl, rfl, of_decide_eq_true rfl⟩
theorem hStart : Statement .hStart := ⟨_, _, rfl, rfl, of_decide_eq_true rfl⟩
theorem run : Statement .run := ⟨_, _, rfl, rfl, of_decide_eq_true rfl⟩
theorem step : Statement .step := ⟨_, _, rfl, rfl, of_decide_eq_true rfl⟩
theorem hStatus : Statement .hStatus := ⟨_, _, rfl, rfl, of_decide_eq_true rfl⟩
theorem hRead : Statement .hRead := ⟨_, _, rfl, rfl, of_decide_eq_true rfl⟩

end Sys2Proof.Laws.Header
end

