-- ==== Sys2Proof/Laws/Text.lean ====
section
/-!
SUPPORT. What the text operations compute, said once: the tokenizer over blank and solid pieces of
a text, the value of a digit string, the refusals and errors of the parsers.
-/
namespace Sys2Proof.Machine

theorem isWS_iff (ws : List Char) (ch : Char) : isWS ws ch = true ↔ ch ∈ ws := by
  simp [isWS]

theorem asciiText_iff (text : Text) : asciiText text = true ↔ ∀ ch ∈ text, ch.toNat ≤ 0x7F := by
  simp [asciiText, Nat.lt_succ_iff]

theorem tokenize_ascii (ws : List Char) {text : Text} (h : asciiText text = true) :
    tokenize ws text = .value (tokenizeFrom ws [] text) := by
  simp [tokenize, h]

theorem tokenize_nonAscii (ws : List Char) {text : Text} (h : ¬ asciiText text = true) :
    tokenize ws text = .refused .nonAscii := by
  simp [tokenize, h]

/-- Whitespace between tokens is skipped (R80). -/
theorem tokenizeFrom_blank {ws : List Char} (t u : Text) (h : ∀ ch ∈ t, ch ∈ ws) :
    tokenizeFrom ws [] (t ++ u) = tokenizeFrom ws [] u := by
  induction t with
  | nil => rfl
  | cons c t ih =>
    have hc : isWS ws c = true := (isWS_iff ws c).2 (h c (by simp))
    simp only [List.cons_append, tokenizeFrom, hc, if_true]
    exact ih fun d hd => h d (by simp [hd])

/-- Characters that are not whitespace go into the token under way (R80). -/
theorem tokenizeFrom_solid {ws : List Char} (t u : Text) (h : ∀ ch ∈ t, ch ∉ ws) (cur : Token) :
    tokenizeFrom ws cur (t ++ u) = tokenizeFrom ws (cur ++ t) u := by
  induction t generalizing cur with
  | nil => simp
  | cons c t ih =>
    have hc : isWS ws c = false := by simpa [isWS] using h c (by simp)
    simp only [List.cons_append, tokenizeFrom, hc, Bool.false_eq_true, if_false]
    rw [ih (fun d hd => h d (by simp [hd]))]
    simp

/-- A token ends at whitespace or with the text (R80). -/
theorem tokenizeFrom_break {ws : List Char} {cur : Token} {u : Text} (hc : cur ≠ [])
    (h : u = [] ∨ ∃ c v, u = c :: v ∧ c ∈ ws) :
    tokenizeFrom ws cur u = cur :: tokenizeFrom ws [] u := by
  rcases h with rfl | ⟨c, v, rfl, h⟩
  · simp [tokenizeFrom, hc]
  · simp [tokenizeFrom, hc, (isWS_iff ws c).2 h]

/-- A digit string is worth its digits, the first the most significant (R82, R111). -/
theorem digitsFrom_iff (digit : Char → Option Nat) (base : Nat) (str : List Char) :
    ∀ acc v, digitsFrom digit base acc str = some v ↔
      ∃ ds : List Nat, List.Forall₂ (fun ch d => digit ch = some d) str ds ∧
        v = acc * base ^ ds.length + Nat.ofDigits base ds.reverse := by
  induction str with
  | nil => intro acc v; simp [digitsFrom, eq_comm]
  | cons c str ih =>
    intro acc v
    unfold digitsFrom
    split
    · rename_i d hcd
      rw [ih]
      constructor
      · rintro ⟨ds, h, rfl⟩
        refine ⟨d :: ds, .cons hcd h, ?_⟩
        simp only [List.length_cons, List.reverse_cons, Nat.ofDigits_append, List.length_reverse,
          Nat.ofDigits_singleton]
        ring
      · rintro ⟨ds, h, rfl⟩
        cases h with
        | cons h1 h2 =>
          rw [hcd] at h1
          cases h1
          refine ⟨_, h2, ?_⟩
          simp only [List.length_cons, List.reverse_cons, Nat.ofDigits_append, List.length_reverse,
            Nat.ofDigits_singleton]
          ring
    · rename_i hcd
      simp only [reduceCtorEq, false_iff]
      rintro ⟨ds, h, _⟩
      cases h with
      | cons h1 h2 => rw [h1] at hcd; simp at hcd

theorem digits_iff (digit : Char → Option Nat) (base : Nat) (str : List Char) (v : Nat) :
    digits digit base str = some v ↔ str ≠ [] ∧
      ∃ ds : List Nat, List.Forall₂ (fun ch d => digit ch = some d) str ds ∧
        v = Nat.ofDigits base ds.reverse := by
  cases str with
  | nil => simp [digits]
  | cons c str => simp [digits, digitsFrom_iff]

theorem Answer.andThen_eq_refused {α β : Type} (a : Answer α) (f : α → Answer β) (r : Refusal) :
    a.andThen f = .refused r ↔ a = .refused r ∨ ∃ v, a = .value v ∧ f v = .refused r := by
  cases a <;> simp [Answer.andThen]

/-- The conversion of hexadecimal tokens refuses nothing. -/
theorem hextokAll_ne_refused (toks : List Token) (r : Refusal) : hextokAll toks ≠ .refused r := by
  induction toks with
  | nil => simp [hextokAll]
  | cons tok toks ih =>
    intro h
    simp only [hextokAll, Answer.andThen_eq_refused] at h
    rcases h with h | ⟨_, _, h | ⟨_, _, h⟩⟩
    · unfold hextok at h; split at h <;> simp at h
    · exact ih h
    · simp at h

/-- The conversion of palette tokens refuses nothing. -/
theorem palSlots_ne_refused (toks : List Token) (r : Refusal) : palSlots toks ≠ .refused r := by
  induction toks with
  | nil => simp [palSlots]
  | cons tok toks ih =>
    intro h
    simp only [palSlots, Answer.andThen_eq_refused] at h
    rcases h with h | ⟨_, _, h | ⟨_, _, h⟩⟩
    · simp only [palSlot, Answer.andThen_eq_refused] at h
      rcases h with h | ⟨_, _, h⟩
      · unfold paltok at h; split at h <;> simp at h
      · split at h <;> simp at h
    · exact ih h
    · simp at h

end Sys2Proof.Machine
end

