-- ==== Sys2Proof/Tests/Slice0.lean ====
section
/-!
SUPPORT. The model's own tests: ill-formed terms, serial forms written out by hand, the worked
examples and vectors of spec/95_test_vectors.md, and a witness for the hypotheses of every
statement.
-/
namespace Sys2Proof.Tests

open Sys2Proof Sys2Proof.Machine Sys2Proof.Safety Sys2Proof.Claims

/-! ## Ill-formed terms are refused -/

/-- A token is not empty (R80). -/
theorem test_wf_empty_token : wellFormed (.hextok []) = false := by decide

/-- A token holds no whitespace (R80). -/
theorem test_wf_blank_in_token : wellFormed (.paltok "1 2".toList) = false := by decide

/-- A tile is 16 bytes, not 15 (R102). -/
theorem test_wf_short_tile : wellFormed (.tdec (List.replicate 15 0#8)) = false := by decide

/-- A colour sequence is a multiple of 64 long (R133). -/
theorem test_wf_one_colour : wellFormed (.compose [⟨1#8, 2#8, 3#8⟩]) = false := by decide

/-- A flat position of the serial form has 32 bits (log 2). -/
theorem test_wf_place_limit :
    wellFormed (.place (2 ^ 32)) = false ∧ wellFormed (.place (2 ^ 32 - 1)) = true := by decide

/-- The decoder refuses an ill-formed operation: HEXTOK of the empty token. -/
theorem test_decode_ill_formed : decode [1#8, 0#8] = .error .illFormed := by decide

/-- The decoder refuses what stands for no operation. -/
theorem test_decode_refuses :
    decode [] = .error .truncated ∧ decode [23#8] = .error (.unknownOperation 23) ∧
    decode [3#8, 0x33#8] = .error .truncated ∧
    decode [4#8, 0#8, 0#8, 8#8] = .error (.badColumn 8#8) ∧
    decode [10#8, 4#8] = .error (.badIndex 4#8) ∧
    decode [0#8, 2#8] = .error (.badMark 2#8) ∧
    decode [0#8, 1#8, 0#8, 0xD8#8, 0#8, 0#8] = .error (.badCharacter 0xD800) := by decide

/-! ## Serial forms written out by hand, one per constructor (log 2) -/

theorem test_decode_tokenize :
    decode [0#8, 1#8, 0x41#8, 0#8, 0#8, 1#8, 0x20#8, 0#8, 0#8, 0#8] =
      .ok (.tokenize ['A', ' '], []) := by decide
theorem test_decode_hextok :
    decode [1#8, 1#8, 0x66#8, 0#8, 0#8, 1#8, 0x46#8, 0#8, 0#8, 0#8] =
      .ok (.hextok ['f', 'F'], []) := by decide
theorem test_decode_hexparse :
    decode [2#8, 1#8, 0x37#8, 0#8, 0#8, 0#8, 0xFF#8] = .ok (.hexparse ['7'], [0xFF#8]) := by decide
theorem test_decode_ilv : decode [3#8, 0x33#8, 0x55#8] = .ok (.ilv 0x33#8 0x55#8, []) := by decide
theorem test_decode_pix :
    decode [4#8, 0x34#8, 0x12#8, 7#8] = .ok (.pix 0x1234#16 7#3, []) := by decide
theorem test_decode_rowdec :
    decode [5#8, 0x41#8, 0x01#8] = .ok (.rowdec 0x41#8 0x01#8, []) := by decide
theorem test_decode_tdec :
    decode (6#8 :: [1#8, 2#8, 3#8, 4#8, 5#8, 6#8, 7#8, 8#8, 9#8, 10#8, 11#8, 12#8, 13#8, 14#8,
      15#8, 16#8, 17#8]) =
      .ok (.tdec [1#8, 2#8, 3#8, 4#8, 5#8, 6#8, 7#8, 8#8, 9#8, 10#8, 11#8, 12#8, 13#8, 14#8,
        15#8, 16#8], [17#8]) := by decide
theorem test_decode_ptdec :
    decode [7#8, 1#8, 0xAA#8, 1#8, 0#8, 0#8] = .ok (.ptdec [0xAA#8, 0#8], []) := by decide
theorem test_decode_paltok :
    decode [8#8, 1#8, 0x36#8, 0#8, 0#8, 1#8, 0x33#8, 0#8, 0#8, 0#8] =
      .ok (.paltok ['6', '3'], []) := by decide
theorem test_decode_palparse :
    decode [9#8, 1#8, 0x35#8, 0#8, 0#8, 0#8] = .ok (.palparse ['5'], []) := by decide
theorem test_decode_palmap : decode [10#8, 3#8] = .ok (.palmap 3#2, []) := by decide
theorem test_decode_palmapseq :
    decode [11#8, 1#8, 2#8, 1#8, 1#8, 0#8] = .ok (.palmapseq [2#2, 1#2], []) := by decide
theorem test_decode_place :
    decode [12#8, 0xFF#8, 0x3F#8, 0#8, 0#8] = .ok (.place 16383, []) := by decide
theorem test_decode_compose : decode [13#8, 0#8] = .ok (.compose [], []) := by decide
theorem test_decode_hReset : decode [14#8] = .ok (.hReset, []) := by decide
theorem test_decode_hSetpal :
    decode [15#8, 1#8, 0x37#8, 0#8, 0#8, 0#8] = .ok (.hSetpal ['7'], []) := by decide
theorem test_decode_hLoadb :
    decode [16#8, 1#8, 0x41#8, 1#8, 0xC2#8, 0#8] = .ok (.hLoadb [0x41#8, 0xC2#8], []) := by decide
theorem test_decode_hLoad :
    decode [17#8, 1#8, 0x34#8, 0#8, 0#8, 1#8, 0x31#8, 0#8, 0#8, 0#8] =
      .ok (.hLoad ['4', '1'], []) := by decide
theorem test_decode_hStart : decode [18#8] = .ok (.hStart, []) := by decide
theorem test_decode_run : decode [19#8] = .ok (.run, []) := by decide
theorem test_decode_step : decode [20#8, 14#8] = .ok (.step, [14#8]) := by decide
theorem test_decode_hStatus : decode [21#8] = .ok (.hStatus, []) := by decide
theorem test_decode_hRead : decode [22#8] = .ok (.hRead, []) := by decide

/-- One colour is three bytes, red first. -/
theorem test_read_rgb : readRGB [1#8, 2#8, 3#8, 4#8] = .ok (⟨1#8, 2#8, 3#8⟩, [4#8]) := by decide

/-- The table's one word decodes (R60; log 2). -/
theorem test_table_word : decodeTableWord 8 0 = some (.tokenize []) := by decide

/-- A table word issued at reset is what the first step carries out (log 2). -/
theorem test_table_word_runs :
    step (State.reset.withFetchWord 8 0) = exec (.tokenize []) State.reset := rfl

/-! ## States and helpers -/

/-- The state an outcome leads to, if it does. -/
def after : Outcome → Option State
  | .next t => some t
  | _ => none

/-- What an outcome hands over. -/
def out (o : Outcome) : Option Result := (after o).map State.out

/-- A master palette with colours to tell apart. -/
def colours : Vector RGB 64 := Vector.ofFn fun i => ⟨BitVec.ofFin (i.castLE (by decide)), 0#8, 7#8⟩

/-- Colour `n` of that palette. -/
def colour (n : Nat) : RGB := ⟨BitVec.ofNat 8 n, 0#8, 7#8⟩

/-- The reset state with that palette. -/
def idle : State := { State.reset with cfg := { State.reset.cfg with mpal := colours } }

/-- The tile T1 of S4. -/
def t1 : List Byte :=
  [0x41#8, 0xC2#8, 0x44#8, 0x48#8, 0x10#8, 0x20#8, 0x40#8, 0x80#8,
   0x01#8, 0x02#8, 0x04#8, 0x08#8, 0x16#8, 0x21#8, 0x42#8, 0x87#8]

/-- P1 after H_LOAD: T1 loaded, PAL = [15, 48, 22, 6]. -/
def loaded : State :=
  { idle with pal := #v[15#6, 48#6, 22#6, 6#6], pt := Memory.ofBytes t1, len := 16 }

/-- P1 in RUN, before the pixel at flat position `k`. -/
def running (k : Nat) : State := { loaded with phase := .run, lenw := true, k := k }

/-- P1 at its end, with one entry of RAST. -/
def finished : State :=
  { running 64 with phase := .done, rast := [(127, ⟨9#8, 8#8, 7#8⟩)] }

/-- A block in ERROR. -/
def failed : State := { loaded with phase := .error, err := 3#3, errinfo := .num 15, k := 5 }

/-! ## Hex-Text Parser (V1) -/

theorem test_tokenize :
    out (exec (.tokenize "41 c2\n44\t48".toList) idle) =
      some (.tokens ["41".toList, "c2".toList, "44".toList, "48".toList]) := by decide
theorem test_hextok :
    out (exec (.hextok "Ff".toList) idle) = some (.byte 0xFF#8) ∧
    out (exec (.hextok "0ff".toList) idle) = some (.error .parseError (.token "0ff".toList)) := by
  decide
theorem test_hexparse :
    out (exec (.hexparse "\r\n41\r\n f 07".toList) idle) =
      some (.bytes [0x41#8, 0x0F#8, 0x07#8]) := by decide
/-- The first bad token is the one reported (V1). -/
theorem test_hexparse_first_bad :
    out (exec (.hexparse "41 4g 100".toList) idle) =
      some (.error .parseError (.token "4g".toList)) := by decide

/-! ## Interleaver (S1, V2) and pattern decoder (S4, V3) -/

theorem test_ilv_s1 :
    out (exec (.ilv 0x33#8 0x55#8) idle) = some (.word 0x2727#16) := by decide
theorem test_ilv_v2 : ilv 0xA5#8 0x3C#8 = 0x4EB1#16 ∧ ilv 0x3C#8 0xA5#8 = 0x8D72#16 := by decide
theorem test_pix :
    out (exec (.pix 0x2727#16 2#3) idle) = some (.index 1#2) ∧
    out (exec (.pix 0x8000#16 0#3) idle) = some (.index 2#2) := by decide
theorem test_rowdec :
    out (exec (.rowdec 0x41#8 0x01#8) idle) =
      some (.indices [0#2, 1#2, 0#2, 0#2, 0#2, 0#2, 0#2, 3#2]) := by decide
theorem test_tdec_s4 :
    tdec t1 =
      [0#2, 1#2, 0#2, 0#2, 0#2, 0#2, 0#2, 3#2, 1#2, 1#2, 0#2, 0#2, 0#2, 0#2, 3#2, 0#2] ++
      [0#2, 1#2, 0#2, 0#2, 0#2, 3#2, 0#2, 0#2, 0#2, 1#2, 0#2, 0#2, 3#2, 0#2, 0#2, 0#2] ++
      [0#2, 0#2, 0#2, 3#2, 0#2, 2#2, 2#2, 0#2, 0#2, 0#2, 3#2, 0#2, 0#2, 0#2, 0#2, 2#2] ++
      [0#2, 3#2, 0#2, 0#2, 0#2, 0#2, 2#2, 0#2, 3#2, 0#2, 0#2, 0#2, 0#2, 2#2, 2#2, 2#2] := by
  decide
/-- IDX[64] of T1 ++ T2 (V3), from the first bytes of the planes of T2. -/
theorem test_ptdec_second_tile :
    (decodeTiles (t1 ++ [0xFF#8, 0#8, 0xFF#8, 0#8, 0xAA#8, 0x55#8, 0x0F#8, 0xF0#8] ++
      [0#8, 0xFF#8, 0xFF#8, 0#8, 0xCC#8, 0x33#8, 0x3C#8, 0x81#8]))[64]? = some 1#2 := by decide
theorem test_ptdec_ragged :
    out (exec (.ptdec (List.replicate 17 0#8)) idle) =
      some (.error .malformedTile (.num 1)) := by decide

/-! ## Palette (V4, V5) -/

theorem test_paltok :
    out (exec (.paltok "0X3f".toList) idle) = some (.nat 63) ∧
    out (exec (.paltok "010".toList) idle) = some (.nat 10) := by decide
theorem test_paltok_bad :
    out (exec (.paltok "0x".toList) idle) =
      some (.error .invalidPaletteSlot (.token "0x".toList)) ∧
    out (exec (.paltok "1f".toList) idle) =
      some (.error .invalidPaletteSlot (.token "1f".toList)) := by decide
theorem test_palparse :
    out (exec (.palparse "0x0F 0x30 22".toList) idle) =
      some (.palette #v[15#6, 48#6, 22#6, 0#6]) := by decide
theorem test_palparse_first_bad :
    out (exec (.palparse "5 64 abc".toList) idle) =
      some (.error .invalidPaletteSlot (.token "64".toList)) := by decide
theorem test_palmap : out (exec (.palmap 1#2) (running 0)) = some (.colour (colour 48)) := by decide
theorem test_palmapseq :
    out (exec (.palmapseq [3#2, 0#2]) (running 0)) = some (.colours [colour 6, colour 15]) := by decide

/-! ## Compositor (V6) -/

theorem test_place :
    out (exec (.place 8704) idle) = some (.coord ⟨64, 64⟩) ∧
    out (exec (.place 16383) idle) = some (.coord ⟨127, 127⟩) := by decide
/-- Outside the grid PLACE hands over an error, and PHASE stays (R23, U14). -/
theorem test_place_outside :
    exec (.place 16384) idle =
      .next { idle with out := .error .rasterOverflow (.num (257 + Config.freeOverflow 16384)) } :=
  rfl
theorem test_compose :
    (after (exec (.compose (List.replicate 64 (colour 5))) (running 0))).map
      (fun t => (t.rast.written ⟨7, 7⟩, t.rast.written ⟨8, 0⟩)) = some (some (colour 5), none) := by
  decide

/-! ## Host operations (P1, V7) -/

theorem test_hReset :
    (after (exec .hReset finished)).map (fun t => (t.phase, t.len, t.lenw, t.k, t.rast.length)) =
      some (.idle, 0, false, 0, 0) := by decide
theorem test_hSetpal :
    (after (exec (.hSetpal "0x0f 0x30 22 6".toList) idle)).map State.pal =
      some #v[15#6, 48#6, 22#6, 6#6] := by decide
/-- "5 64 abc" enters ERROR with the first bad token (R141, R162). -/
theorem test_hSetpal_bad :
    (after (exec (.hSetpal "5 64 abc".toList) idle)).map (fun t => (t.phase, t.err, t.errinfo)) =
      some (.error, 2#3, .token "64".toList) := by decide
theorem test_hLoadb :
    (after (exec (.hLoadb [0x41#8, 0#8, 0xC2#8]) loaded)).map (fun t => (t.len, t.pt)) =
      some (3, [(0, 0x41#8), (2, 0xC2#8)]) := by decide
theorem test_hLoad :
    (after (exec (.hLoad "41 c2".toList) idle)).map (fun t => (t.len, t.ptRead 1, t.ptRead 2)) =
      some (2, some 0xC2#8, none) := by decide
/-- "41 4g 100" enters ERROR with the first bad token (R143, R161). -/
theorem test_hLoad_bad :
    (after (exec (.hLoad "41 4g 100".toList) idle)).map (fun t => (t.phase, t.err, t.errinfo)) =
      some (.error, 1#3, .token "4g".toList) := by decide
theorem test_hStart :
    (after (exec .hStart loaded)).map (fun t => (t.phase, t.k, t.lenw)) =
      some (.run, 0, true) := by decide
/-- 4112 bytes hold 257 tiles (V7). -/
theorem test_hStart_overflow :
    (after (exec .hStart { loaded with len := 4112 })).map
      (fun t => (t.phase, t.err, t.errinfo, t.lenw)) =
      some (.error, 4#3, .num 257, true) := by decide
theorem test_run :
    (after (exec .run (running 0))).map
      (fun t => (t.phase, t.k, t.rast.written ⟨6, 1⟩, t.rast.written ⟨7, 7⟩)) =
      some (.done, 64, some (colour 6), some (colour 22)) := by decide
theorem test_step :
    (after (exec .step (running 8))).map (fun t => (t.phase, t.k, t.rast)) =
      some (.run, 9, [(128, colour 48)]) := by decide
theorem test_step_completes :
    (after (exec .step (running 64))).map (fun t => (t.phase, t.k)) = some (.done, 64) := by decide
theorem test_hStatus :
    (running 8).status.k = 8 ∧ (running 8).status.len = 16 ∧ failed.status.err = 3#3 ∧
    failed.status.errinfo = .num 15 := by decide
theorem test_hRead : finished.rast.entry 0 127 = ⟨9#8, 8#8, 7#8⟩ := by decide

/-! ## Witnesses: states and operands that meet the hypotheses of each statement -/

/-- Every operand at an end of its range is well formed. -/
theorem witness_DecodeEncodeRoundTrip :
    wellFormed (.place (2 ^ 32 - 1)) = true ∧ wellFormed (.compose []) = true ∧
    wellFormed (.hextok ['g']) = true ∧ wellFormed (.tdec t1) = true := by decide

theorem witness_DecodeAcceptsOnlyEncodings : decode [10#8, 3#8, 9#8] = .ok (.palmap 3#2, [9#8]) := by
  decide

theorem witness_StepRunsDecodedOperation :
    decode ({ loaded with queue := [18#8, 21#8] } : State).queue = .ok (.hStart, [21#8]) := by decide

theorem witness_EmptyQueueStep :
    (idle.queue = [] ∧ idle.phase ≠ .run) ∧
    ((running 0).queue = [] ∧ (running 0).phase = .run) := by decide

theorem witness_TableWordRunsNext : decodeTableWord 8 0 = some (.tokenize []) := by decide

theorem witness_ResetState : exec .hReset finished = .next finished.resetBlock := rfl

theorem witness_StepKeepsInvariant :
    Invariant (running 8) ∧ ∃ t, step (running 8) = .next t :=
  ⟨⟨by decide, by decide, by decide, by decide, by decide, fun _ => by decide, by decide,
    fun _ => by decide, by decide, by decide, by decide, by decide, by decide⟩, _, rfl⟩

/-! Texts and tokens. -/

/-- A text is ASCII if a look at its characters says so. -/
theorem ascii_of {text : Text} (h : text.all (fun ch => Nat.ble ch.toNat 0x7F) = true) :
    Ascii text := by
  intro ch hch
  exact Nat.le_of_ble_eq_true (List.all_eq_true.1 h ch hch)

/-- The tokens of a text from its pieces, each of them looked at. -/
theorem tokensOf_of {ws : List Char} {text : Text} {toks : List Token}
    (pieces : List (Text × Token)) (trail : Text)
    (h1 : pieces.all (fun p => p.1.all (fun ch => ws.contains ch) && !p.2.isEmpty &&
      p.2.all (fun ch => !ws.contains ch)) = true)
    (h2 : pieces.tail.all (fun p => !p.1.isEmpty) = true)
    (h3 : trail.all (fun ch => ws.contains ch) = true)
    (h4 : text = pieces.flatMap (fun p => p.1 ++ p.2) ++ trail)
    (h5 : toks = pieces.map (fun p => p.2)) : TokensOf ws text toks := by
  refine ⟨pieces, trail, ?_, ?_, ?_, h4, h5⟩
  · intro p hp
    have := List.all_eq_true.1 h1 p hp
    simpa [Blank, Solid, and_assoc] using this
  · intro p hp
    have := List.all_eq_true.1 h2 p hp
    simpa using this
  · intro ch hch
    have := List.all_eq_true.1 h3 ch hch
    simpa using this

/-- "41 c2" and its two tokens. -/
theorem tokens_hex :
    Ascii "41 c2".toList ∧ TokensOf idle.cfg.ws "41 c2".toList ["41".toList, "c2".toList] :=
  ⟨ascii_of (by decide), tokensOf_of [([], "41".toList), ([' '], "c2".toList)] [] (by decide) (by decide)
    (by decide) (by decide) (by decide)⟩

/-- "f 4g " and its two tokens, of which the second is no byte. -/
theorem tokens_bad_hex :
    Ascii "f 4g ".toList ∧ TokensOf idle.cfg.ws "f 4g ".toList ["f".toList, "4g".toList] :=
  ⟨ascii_of (by decide), tokensOf_of [([], "f".toList), ([' '], "4g".toList)] [' '] (by decide) (by decide)
    (by decide) (by decide) (by decide)⟩

theorem hex_41 : HexTokenSpells "41".toList 0x41#8 :=
  .inr ⟨'4', 4, '1', 1, by decide, by decide, by decide, by decide⟩

theorem hex_c2 : HexTokenSpells "c2".toList 0xC2#8 :=
  .inr ⟨'c', 12, '2', 2, by decide, by decide, by decide, by decide⟩

theorem hex_f : HexTokenSpells "f".toList 0x0F#8 :=
  .inl ⟨'f', 15, by decide, by decide, by decide⟩

/-- The greatest byte, in mixed case. -/
theorem hex_fF : HexTokenSpells "fF".toList 0xFF#8 :=
  .inr ⟨'f', 15, 'F', 15, by decide, by decide, by decide, by decide⟩

theorem not_hex_4g : ∀ b, ¬ HexTokenSpells "4g".toList b := by
  have hg : ∀ p ∈ hexDigits, p.1 ≠ 'g' := by decide
  rintro b (⟨d, v, _, h, _⟩ | ⟨d1, v1, d0, v0, _, h0, h, _⟩)
  · simp at h
  · have h2 : ['4', 'g'] = [d1, d0] := h
    simp only [List.cons.injEq, and_true] at h2
    exact hg _ h0 h2.2.symm

theorem not_hex_three : ∀ b, ¬ HexTokenSpells ['0', 'f', 'f'] b := by
  rintro b (⟨d, v, _, h, _⟩ | ⟨d1, v1, d0, v0, _, _, h, _⟩) <;> simp at h

theorem witness_TokenizeHandsOverTokens :
    Ascii "41 c2".toList ∧ TokensOf idle.cfg.ws "41 c2".toList ["41".toList, "c2".toList] :=
  tokens_hex

theorem witness_HexTokenToByte :
    (HexTokenSpells "fF".toList 0xFF#8 ∧ idle.phase ≠ .error) ∧
    ((∀ b, ¬ HexTokenSpells ['0', 'f', 'f'] b) ∧ (running 0).phase ≠ .error) :=
  ⟨⟨hex_fF, by decide⟩, not_hex_three, by decide⟩

theorem witness_HexTextToBytes :
    List.Forall₂ HexTokenSpells ["41".toList, "c2".toList] [0x41#8, 0xC2#8] ∧
    idle.phase ≠ .error := ⟨.cons hex_41 (.cons hex_c2 .nil), by decide⟩

theorem witness_HexTextToBytes_bad :
    TokensOf idle.cfg.ws "f 4g ".toList ["f".toList, "4g".toList] ∧
    List.Forall₂ HexTokenSpells ["f".toList] [0x0F#8] ∧
    (∀ b, ¬ HexTokenSpells "4g".toList b) ∧ idle.phase ≠ .error :=
  ⟨tokens_bad_hex.2, .cons hex_f .nil, not_hex_4g, by decide⟩

/-- U+0080 is the first character that is not ASCII. -/
theorem witness_NonAsciiTextIsRefused :
    ¬ Ascii [Char.ofNat 0x80] ∧ Ascii [Char.ofNat 0x7F] ∧ idle.phase ≠ .error ∧
    idle.phase = .idle :=
  ⟨fun h => absurd (h _ (List.mem_singleton.2 rfl)) (by decide), ascii_of (by decide), by decide,
    by decide⟩

/-! Pattern decoder. -/

theorem witness_RowDecodesToIndices :
    exec (.ilv 0x41#8 0x01#8) idle = .next { idle with out := .word (ilv 0x41#8 0x01#8) } := rfl

theorem witness_TileDecodesToIndices :
    t1.length = 16 ∧ t1[7]? = some 0x80#8 ∧ t1[8 + 7]? = some 0x87#8 ∧
    exec (.rowdec 0x80#8 0x87#8) idle =
      .next { idle with out := .indices (rowdec 0x80#8 0x87#8) } :=
  ⟨by decide, by decide, by decide, rfl⟩

theorem witness_BlockDecodesToIndices :
    (t1 ++ t1).length % 16 = 0 ∧ idle.phase ≠ .error ∧ 1 < (t1 ++ t1).length / 16 ∧
    exec (.tdec (((t1 ++ t1).drop (16 * 1)).take 16)) idle =
      .next { idle with out := .indices (tdec (((t1 ++ t1).drop (16 * 1)).take 16)) } :=
  ⟨by decide, by decide, by decide, rfl⟩

theorem witness_RaggedBlockRaises :
    (List.replicate 15 0#8).length % 16 ≠ 0 ∧ (List.replicate 17 0#8).length % 16 ≠ 0 ∧
    idle.phase ≠ .error ∧ finished.phase ≠ .error := by decide

theorem witness_DecoderIsTileLocal :
    t1.length % 16 = 0 ∧ 16 * 0 + 16 ≤ t1.length ∧
    exec (.ptdec t1) idle = .next { idle with out := .indices (decodeTiles t1) } :=
  ⟨by decide, by decide, rfl⟩

/-! Palette. -/

theorem pal_63 : PalTokenSpells "63".toList 63 :=
  .inl ⟨by decide, [6, 3], .cons (by decide) (.cons (by decide) .nil), by decide⟩

theorem pal_0x3f : PalTokenSpells "0x3f".toList 63 :=
  .inr ⟨'x', ['3', 'f'], .inl rfl, by decide, by decide, [3, 15],
    .cons (by decide) (.cons (by decide) .nil), by decide⟩

/-- A prefix without digits is no number (R111). -/
theorem not_pal_0x : ∀ v, ¬ PalTokenSpells ['0', 'x'] v := by
  have hx : ∀ p ∈ decDigits, p.1 ≠ 'x' := by decide
  rintro v (⟨_, ds, h, _⟩ | ⟨x, rest, _, he, h, _⟩)
  · cases h with
    | cons _ h2 =>
      cases h2 with
      | cons h3 _ => exact hx _ h3 rfl
  · simp only [List.cons.injEq, true_and] at he
    exact h he.2.symm

/-- 64 is the first number that does not fit a palette register (R112). -/
theorem not_pal_64 : ∀ v, ¬ PalTokenFits ['6', '4'] v := by
  have h6 : ∀ p ∈ decDigits, p.1 = '6' → p.2 = 6 := by decide
  have h4 : ∀ p ∈ decDigits, p.1 = '4' → p.2 = 4 := by decide
  rintro v ⟨⟨_, ds, h, rfl⟩ | ⟨x, rest, _, he, _⟩, hlt⟩
  · cases h with
    | cons a h =>
      cases h with
      | cons b h =>
        cases h
        have ha := h6 _ a rfl
        have hb := h4 _ b rfl
        simp only at ha hb
        subst ha
        subst hb
        exact absurd hlt (by decide)
  · simp at he

/-- "63 0" is a palette text of two tokens. -/
theorem tokens_pal :
    Ascii "63 0".toList ∧ TokensOf idle.cfg.ws "63 0".toList ["63".toList, "0".toList] :=
  ⟨ascii_of (by decide), tokensOf_of [([], "63".toList), ([' '], "0".toList)] [] (by decide) (by decide)
    (by decide) (by decide) (by decide)⟩

theorem fits_digit {ch : Char} {v : Nat} (h : (ch, v) ∈ decDigits) (hv : v < 64) :
    PalTokenFits [ch] v :=
  ⟨.inl ⟨by simp, [v], .cons h .nil, by simp⟩, hv⟩

theorem witness_PaletteTokenToNumber :
    (PalTokenSpells "63".toList 63 ∧ PalTokenSpells "0x3f".toList 63 ∧ idle.phase ≠ .error) ∧
    ((∀ v, ¬ PalTokenSpells ['0', 'x'] v) ∧ (running 0).phase ≠ .error) :=
  ⟨⟨pal_63, pal_0x3f, by decide⟩, not_pal_0x, by decide⟩

theorem witness_PaletteTextToValues :
    TokensOf idle.cfg.ws "63 0".toList ["63".toList, "0".toList] ∧
    List.Forall₂ PalTokenFits ["63".toList, ['0']] [63, 0] ∧ idle.phase ≠ .error :=
  ⟨tokens_pal.2, .cons ⟨pal_63, by decide⟩ (.cons (fits_digit (by decide) (by decide)) .nil),
    by decide⟩

theorem tokens_64 :
    Ascii "5 64".toList ∧ TokensOf idle.cfg.ws "5 64".toList [['5'], ['6', '4']] :=
  ⟨ascii_of (by decide), tokensOf_of [([], ['5']), ([' '], ['6', '4'])] [] (by decide) (by decide)
    (by decide) (by decide) (by decide)⟩

theorem witness_PaletteTextToValues_bad :
    TokensOf idle.cfg.ws "5 64".toList [['5'], ['6', '4']] ∧
    List.Forall₂ PalTokenFits [['5']] [5] ∧ (∀ v, ¬ PalTokenFits ['6', '4'] v) ∧
    idle.phase ≠ .error :=
  ⟨tokens_64.2, .cons (fits_digit (by decide) (by decide)) .nil, not_pal_64, by decide⟩

/-- The reset state under a policy for a fifth palette token. -/
def under (policy : Config.PalExtraPolicy) : State :=
  { idle with cfg := { idle.cfg with palExtra := policy } }

/-- Five palette tokens. -/
theorem tokens_five (policy : Config.PalExtraPolicy) :
    Ascii "1 2 3 4 5".toList ∧
    TokensOf (under policy).cfg.ws "1 2 3 4 5".toList [['1'], ['2'], ['3'], ['4'], ['5']] := by
  exact ⟨ascii_of (by decide), tokensOf_of
    [([], ['1']), ([' '], ['2']), ([' '], ['3']), ([' '], ['4']), ([' '], ['5'])] []
    (by cases policy <;> decide) (by decide) (by cases policy <;> decide) (by decide)
    (by decide)⟩

theorem witness_ExtraPaletteTokens :
    List.Forall₂ PalTokenFits ([['1'], ['2'], ['3'], ['4'], ['5']].take 4) [1, 2, 3, 4] ∧
    [['1'], ['2'], ['3'], ['4'], ['5']][4]? = some ['5'] ∧
    ((under .refuse).cfg.palExtra = .refuse ∧ (under .refuse).phase ≠ .error) ∧
    ((under .ignore).cfg.palExtra = .ignore ∧ (under .ignore).phase ≠ .error) ∧
    ((under .error).cfg.palExtra = .error ∧ (under .error).phase ≠ .error) :=
  ⟨.cons (fits_digit (by decide) (by decide)) (.cons (fits_digit (by decide) (by decide))
    (.cons (fits_digit (by decide) (by decide)) (.cons (fits_digit (by decide) (by decide)) .nil))),
    by decide, by decide, by decide, by decide⟩

/-- The fourth of five tokens is the first that does not fit. -/
theorem witness_ExtraPaletteTokens_bad :
    [['1'], ['2'], ['3'], ['6', '4'], ['5']].take 4 = [['1'], ['2'], ['3']] ++ ['6', '4'] :: [] ∧
    List.Forall₂ PalTokenFits [['1'], ['2'], ['3']] [1, 2, 3] ∧
    (∀ v, ¬ PalTokenFits ['6', '4'] v) ∧ (under .error).cfg.palExtra ≠ .refuse :=
  ⟨by decide, .cons (fits_digit (by decide) (by decide)) (.cons (fits_digit (by decide) (by decide))
    (.cons (fits_digit (by decide) (by decide)) .nil)), not_pal_64, by decide⟩

theorem witness_PalmapLooksUpColour : (running 0).phase = .run ∧ loaded.phase ≠ .run := by decide

theorem witness_PalmapseqIsPointwise :
    (running 0).phase = .run ∧ [3#2, 0#2][1]? = some 0#2 ∧
    exec (.palmap 0#2) (running 0) =
      .next { running 0 with out := .colour ((running 0).palmap 0#2) } ∧ loaded.phase ≠ .run :=
  ⟨by decide, by decide, rfl, by decide⟩

/-! Compositor. -/

theorem witness_PlaceGivesCoordinate :
    (16383 / 64 < 16 * 16 ∧ idle.phase ≠ .error) ∧
    (16 * 16 ≤ 16384 / 64 ∧ (running 0).phase ≠ .error) := by decide

theorem witness_PlaceHasInverse :
    127 < 128 ∧ idle.phase ≠ .error ∧
    exec (.place 16383) idle = .next { idle with out := .coord ⟨127, 127⟩ } :=
  ⟨by decide, by decide, rfl⟩

/-- 256 tiles of pixels are the most that COMPOSE takes. -/
theorem witness_ComposeWritesPlacedEntries :
    (running 0).phase = .run ∧ (List.replicate 16384 (colour 1)).length % 64 = 0 ∧
    (List.replicate 16384 (colour 1)).length / 64 ≤ 256 := by
  rw [List.length_replicate]; decide

theorem witness_ComposeOverflowRaises :
    idle.phase ≠ .error ∧ (List.replicate 16448 (colour 1)).length % 64 = 0 ∧
    256 < (List.replicate 16448 (colour 1)).length / 64 := by
  rw [List.length_replicate]; decide

theorem witness_OperandsOutsideFormatAreRefused :
    (List.replicate 15 0#8).length ≠ 16 ∧ (List.replicate 17 0#8).length ≠ 16 ∧
    [colour 1].length % 64 ≠ 0 ∧ idle.phase ≠ .error := by decide

/-! Host operations. -/

theorem witness_ResetOperation :
    finished.phase ≠ .run ∧ (running 3).phase = .run ∧
    ((finished.phase = .done ∨ finished.phase = .error) ∧
      exec .hReset finished = .next finished.resetBlock ∧
      finished.resetBlock.phase ≠ finished.phase) :=
  ⟨by decide, by decide, by decide, rfl, by decide⟩

theorem witness_SetPaletteWritesRegisters :
    idle.phase = .idle ∧
    palparse idle.cfg ['7'] = .value #v[7#6, 0#6, 0#6, 0#6] ∧
    palparse idle.cfg ['x'] = .raised .invalidPaletteSlot (.token ['x']) ∧
    palparse idle.cfg "1 2 3 4 5".toList = .refused (.tooManyPaletteTokens 5) ∧
    (running 0).phase ≠ .idle := by decide

theorem witness_SetPaletteWritesRegisters_tokens :
    Ascii "63 0".toList ∧ TokensOf idle.cfg.ws "63 0".toList ["63".toList, ['0']] ∧
    List.Forall₂ PalTokenFits ["63".toList, ['0']] [63, 0] :=
  ⟨tokens_pal.1, tokens_pal.2, witness_PaletteTextToValues.2.1⟩

theorem witness_SetPaletteWritesRegisters_bad :
    Ascii "5 64".toList ∧ TokensOf idle.cfg.ws "5 64".toList [['5'], ['6', '4']] ∧
    List.Forall₂ PalTokenFits [['5']] [5] ∧ (∀ v, ¬ PalTokenFits ['6', '4'] v) :=
  ⟨tokens_64.1, tokens_64.2, witness_PaletteTextToValues_bad.2.1, not_pal_64⟩

/-- The reset state with a capacity of three bytes. -/
def small : State := { idle with cfg := { idle.cfg with lenMax := some 3 } }

theorem witness_LoadBytesFillsPatternMemory :
    small.phase = .idle ∧ (∀ m, small.cfg.lenMax = some m → (List.replicate 3 0#8).length ≤ m) ∧
    (small.cfg.lenMax = some 3 ∧ 3 < (List.replicate 4 0#8).length) ∧ finished.phase ≠ .idle :=
  ⟨by decide, by rintro m ⟨⟩; decide, by decide, by decide⟩

theorem witness_LoadTextLoadsItsBytes :
    idle.phase = .idle ∧
    hexparse idle.cfg.ws ['4', '1'] = .value [0x41#8] ∧
    hexparse idle.cfg.ws ['x'] = .raised .parseError (.token ['x']) ∧ failed.phase ≠ .idle := by
  decide

theorem witness_LoadTextLoadsItsBytes_tokens :
    Ascii "41 c2".toList ∧ TokensOf idle.cfg.ws "41 c2".toList ["41".toList, "c2".toList] ∧
    List.Forall₂ HexTokenSpells ["41".toList, "c2".toList] [0x41#8, 0xC2#8] ∧
    (∀ m, idle.cfg.lenMax = some m → [0x41#8, 0xC2#8].length ≤ m) :=
  ⟨tokens_hex.1, tokens_hex.2, witness_HexTextToBytes.1, by rintro m ⟨⟩⟩

theorem witness_LoadTextLoadsItsBytes_bad :
    Ascii "f 4g ".toList ∧ TokensOf idle.cfg.ws "f 4g ".toList ["f".toList, "4g".toList] ∧
    List.Forall₂ HexTokenSpells ["f".toList] [0x0F#8] ∧ ∀ b, ¬ HexTokenSpells "4g".toList b :=
  ⟨tokens_bad_hex.1, tokens_bad_hex.2, .cons hex_f .nil, not_hex_4g⟩

/-- A block of `len` bytes of zero, without and with STRICT_LEN. -/
def zeros (len : Nat) (strict : Bool) : State :=
  { idle with len := len, cfg := { idle.cfg with strictLen := strict } }

/-- Each of the outcomes of H_START at the lengths of V7. -/
theorem witness_StartChecksAndStarts :
    ((zeros 4097 true).phase = .idle ∧ (zeros 4097 true).len % 16 ≠ 0) ∧
    ((zeros 4112 true).phase = .idle ∧ (zeros 4112 true).len % 16 = 0 ∧
      (zeros 4112 true).cfg.strictLen = true ∧ (zeros 4112 true).len ≠ 4096) ∧
    ((zeros 4112 false).phase = .idle ∧ (zeros 4112 false).len % 16 = 0 ∧
      (zeros 4112 false).cfg.strictLen = false ∧ 16 * 16 < (zeros 4112 false).len / 16) ∧
    ((zeros 4096 true).phase = .idle ∧ (zeros 4096 true).len % 16 = 0 ∧
      (zeros 4096 true).len = 4096 ∧ (zeros 4096 true).len / 16 ≤ 16 * 16) ∧
    (running 0).phase ≠ .idle := by decide

theorem witness_StatusReportsRegisters :
    (failed.err ≠ 0#3 ∧ failed.phase = .error) ∧ (idle.err = 0#3 ∧ idle.phase ≠ .error) := by
  decide

theorem witness_ReadHandsOverRaster :
    finished.phase = .done ∧ finished.rast.written ⟨127, 0⟩ = some ⟨9#8, 8#8, 7#8⟩ ∧
    finished.rast.written ⟨127, 127⟩ = none ∧ idle.phase ≠ .done := by decide

/-! The run. -/

/-- The canonical length, in RUN. -/
def canonical : State := { running 0 with len := 4096 }

theorem canonical_atStart : AtStart canonical := by unfold AtStart; decide

/-- RUN completes on whole tiles that fit the grid. -/
theorem canonical_runs : ∃ t, exec .run canonical = .next t := by
  have hlen : (canonical.palmapseq (decodeTiles canonical.block)).length = 16384 := by
    rw [State.palmapseq, List.length_map, decodeTiles_length, State.block_length]; rfl
  have h1 : ptdec canonical.block = .value (decodeTiles canonical.block) :=
    ptdec_value.2 ⟨by rw [State.block_length]; rfl, rfl⟩
  have h2 := (compose_value (s := canonical)
    (rgb := canonical.palmapseq (decodeTiles canonical.block))).2
    ⟨by rw [hlen], by rw [hlen], rfl⟩
  have hp : canonical.phase = .run := rfl
  simp only [exec, execRun, onlyIn_pos _ _ hp, h1, conclude_value, h2]
  exact ⟨_, rfl⟩

theorem witness_StepPlacesOnePixel :
    idle.phase ≠ .run ∧
    ((running 64).phase = .run ∧ (running 64).k = 64 * ((running 64).len / 16)) ∧
    ((running 63).phase = .run ∧ (running 63).k < 64 * ((running 63).len / 16) ∧
      (running 63).len / 16 ≤ 256) := by decide

theorem witness_RunWritesEveryPixel : AtStart (running 0) ∧ AtStart canonical :=
  ⟨by unfold AtStart; decide, canonical_atStart⟩

theorem witness_StepsAgreeWithRun : AtStart (running 0) := by unfold AtStart; decide

theorem witness_StartedRunTerminates :
    exec .hStart loaded = .next (running 0) ∧ (running 0).phase = .run ∧
    (running 0).queue = [] := ⟨rfl, by decide, by decide⟩

/-- PIPELINE with each of its three kinds of answer (R109, V7, R81). -/
theorem witness_HostProgramComputesPipeline :
    idle.phase = .idle ∧ pipeline idle.cfg ['7'] [] = .value ([], true) ∧
    pipeline idle.cfg [] ['4', '1'] = .raised .malformedTile (.num 1) ∧
    pipeline idle.cfg [] [Char.ofNat 0x80] = .refused .nonAscii := ⟨by decide, rfl, rfl, rfl⟩

theorem witness_CanonicalRunFillsRaster :
    AtStart canonical ∧ canonical.len = 4096 ∧ ∃ t, exec .run canonical = .next t :=
  ⟨canonical_atStart, rfl, canonical_runs⟩

theorem witness_ShortRunLeavesRestOpen :
    AtStart (running 0) ∧ (running 0).rast = [] ∧ (∃ t, exec .run (running 0) = .next t) ∧
    (running 0).len / 16 ≤ 0 / 8 * 16 + 8 / 8 :=
  ⟨by unfold AtStart; decide, rfl, ⟨_, rfl⟩, by decide⟩

theorem witness_RunDependsOnInputsOnly :
    (running 0).phase = .run ∧ (running 9).phase = .run ∧ (running 0).pt = (running 9).pt ∧
    (running 0).len = (running 9).len ∧ (running 0).pal = (running 9).pal ∧
    (running 0).cfg.mpal = (running 9).cfg.mpal ∧ (running 0).rast = (running 9).rast ∧
    ∃ t, exec .run (running 0) = .next t := ⟨rfl, rfl, rfl, rfl, rfl, rfl, rfl, _, rfl⟩

theorem witness_DefaultPaletteRunIsOneColour :
    AtStart { running 0 with pal := #v[0#6, 0#6, 0#6, 0#6] } ∧
    ∃ t, exec .run { running 0 with pal := #v[0#6, 0#6, 0#6, 0#6] } = .next t :=
  ⟨by unfold AtStart; decide, _, rfl⟩

/-! Rules of the whole machine. -/

theorem witness_OperationsByPhase :
    phaseTable .hRead = some ("H_READ", [.done]) ∧ finished.phase ∈ [Phase.done] ∧
    (running 0).phase ∉ [Phase.done] := ⟨rfl, by decide, by decide⟩

theorem witness_PhaseChangesAreLegal :
    (∃ t, exec .hReset failed = .next t) ∧ (∃ t, exec .hStart loaded = .next t) ∧
    (∃ t, exec .step (running 64) = .next t ∧ t.phase = .done) ∧
    (∃ t, exec (.hSetpal ['x']) idle = .next t ∧ t.phase = .error) ∧
    (∃ t, exec (.hLoad ['x']) idle = .next t ∧ t.phase = .error) ∧
    ∃ t, exec .hStart { loaded with len := 17 } = .next t ∧ t.phase = .error :=
  ⟨⟨_, rfl⟩, ⟨_, rfl⟩, ⟨_, rfl, rfl⟩, ⟨_, rfl, rfl⟩, ⟨_, rfl, rfl⟩, _, rfl, rfl⟩

/-- Each of the five errors is taken by its operation. -/
theorem witness_ErrorsComeFromHostOperations :
    (∃ t, exec (.hLoad ['x']) idle = .next t ∧ t.err = 1#3) ∧
    (∃ t, exec (.hSetpal ['x']) idle = .next t ∧ t.err = 2#3) ∧
    (∃ t, exec .hStart (zeros 17 false) = .next t ∧ t.err = 3#3) ∧
    (∃ t, exec .hStart (zeros 4112 false) = .next t ∧ t.err = 4#3) ∧
    ∃ t, exec .hStart (zeros 4112 true) = .next t ∧ t.err = 6#3 :=
  ⟨⟨_, rfl, rfl⟩, ⟨_, rfl, rfl⟩, ⟨_, rfl, rfl⟩, ⟨_, rfl, rfl⟩, _, rfl, rfl⟩

theorem witness_TrapEntryWritesOnly :
    ∃ t, exec .hStart { loaded with len := 17 } = .next t ∧ t.phase = .error ∧
      loaded.phase ≠ .error := ⟨_, rfl, rfl, by decide⟩

theorem witness_ErrorIsStickyUntilReset :
    failed.phase = .error ∧ (∃ t, exec .hStatus failed = .next t) ∧ Instr.hStatus ≠ .hReset :=
  ⟨rfl, ⟨_, rfl⟩, by decide⟩

theorem witness_ParametersNeverChange : ∃ t, step (running 8) = .next t := ⟨_, rfl⟩

theorem witness_PaletteWrittenBySetpalOnly :
    ∃ t, exec (.hSetpal ['7']) idle = .next t ∧ t.pal ≠ idle.pal := ⟨_, rfl, by decide⟩

theorem witness_PatternMemoryWrittenByLoadsOnly :
    ∃ t, exec (.hLoadb [0x41#8]) idle = .next t ∧ t.len ≠ idle.len := ⟨_, rfl, by decide⟩

theorem witness_CounterWrites : ∃ t, exec .step (running 8) = .next t ∧ t.k ≠ (running 8).k :=
  ⟨_, rfl, by decide⟩

theorem witness_LengthFlagWrites :
    (∃ t, exec .hStart loaded = .next t) ∧ (∃ t, exec .hReset finished = .next t) ∧
    ∃ t, exec .step (running 8) = .next t := ⟨⟨_, rfl⟩, ⟨_, rfl⟩, _, rfl⟩

theorem witness_RasterWrittenByCoreOnly :
    ∃ t, exec .step (running 8) = .next t ∧ t.rast.written ⟨0, 1⟩ ≠ (running 8).rast.written ⟨0, 1⟩ :=
  ⟨_, rfl, by decide⟩

theorem witness_StageOperationsAreFunctions :
    valueOnly (.place 16384) = true ∧ (∃ t, exec (.place 16384) idle = .next t) ∧
    ∃ t, exec (.place 16383) idle = .next t := ⟨rfl, ⟨_, rfl⟩, _, rfl⟩

end Sys2Proof.Tests
end

section
/-!
PROOF. The Pattern Decoder issued on its own (spec/42_pattern_decoder.md R103, R106).
-/
namespace Sys2Proof.Machine

/-- PTDEC hands over indices exactly where it is accepted on whole tiles, and they are the block's
decoded tiles (R103, R104, R169). -/
theorem exec_ptdec_eq_indices {block : List Byte} {s : State} {idx : List PixelIdx} :
    exec (.ptdec block) s = .next { s with out := .indices idx } ↔
      s.phase ≠ .error ∧ block.length % 16 = 0 ∧ idx = decodeTiles block := by
  -- `notIn_next` gives the phase, `ptdec_value` the whole tiles; an error is no list of indices.
  simp [exec, execPtdec, notIn_next, onItsOwn_next, ptdec_value, State.setOut, and_assoc]

/-- Tile `t` of a block is made of the bytes `16t` to `16t + 15` alone (R44). -/
theorem tileBytes_congr {a b : List Byte} {t : Nat}
    (h : ∀ j, j < 16 → a[16 * t + j]? = b[16 * t + j]?) : tileBytes a t = tileBytes b t := by
  apply List.ext_getElem?
  intro j
  by_cases hj : j < 16
  · simpa [tileBytes, Config.TILE_BYTES, List.getElem?_drop, hj] using h j hj
  · simp [tileBytes, Config.TILE_BYTES, hj]

/-- The decoder is tile-local (R106): the pixels of tile `t` are those of its 16 bytes. -/
theorem decodeTiles_getElem?_congr {a b : List Byte} {t k : Nat}
    (ha : 16 * t + 16 ≤ a.length) (hb : 16 * t + 16 ≤ b.length)
    (h : ∀ j, j < 16 → a[16 * t + j]? = b[16 * t + j]?) (hk : k < 64) :
    (decodeTiles a)[64 * t + k]? = (decodeTiles b)[64 * t + k]? := by
  rw [decodeTiles_getElem? a (by omega) hk, decodeTiles_getElem? b (by omega) hk,
    tileBytes_congr h]

/-- Settles O22: the order by `decodeTiles_append`, the locality because a pixel of a tile is read
from that tile's bytes. -/
theorem decoderIsTileLocal : Obligations.DecoderIsTileLocal := by
  refine ⟨fun s a b ia ib ha hb hia hib => ?_, fun s a b ia ib t hia hib hta htb hab k hk => ?_⟩
  · obtain ⟨hphase, -, rfl⟩ := exec_ptdec_eq_indices.1 hia
    obtain ⟨-, -, rfl⟩ := exec_ptdec_eq_indices.1 hib
    have hwhole : (a ++ b).length % 16 = 0 := by rw [List.length_append]; omega
    exact exec_ptdec_eq_indices.2 ⟨hphase, hwhole, (decodeTiles_append a b ha).symm⟩
  · obtain ⟨-, -, rfl⟩ := exec_ptdec_eq_indices.1 hia
    obtain ⟨-, -, rfl⟩ := exec_ptdec_eq_indices.1 hib
    exact decodeTiles_getElem?_congr hta htb hab hk

end Sys2Proof.Machine
end

section
/-!
PROOF. The canonical run (spec/44_tile_compositor.md R130): RUN writes the colour of every flat
position, and the flat positions of 256 tiles cover the raster.
-/
namespace Sys2Proof.Machine

open Sys2Proof.Claims

/-- The coordinate of the statements is PLACE's, in the grid 16 tiles wide (R125). -/
theorem coordOf_sixteen (i : Nat) : coordOf 16 i = coordAt i := rfl

/-- The closed form of a pixel index (R108): the decoder's word and column give the two bits. -/
theorem pix_ilv_eq_indexAt (s : State) (i : Nat) :
    pix (ilv (s.pt.peek (lowAddress i)) (s.pt.peek (highAddress i))) (columnOf i) =
      indexAt s i := by
  have hcol : (columnOf i).toNat = i % 8 := by simp [columnOf, Config.TILE_DIM]
  have hlow : lowAddress i = 16 * (i / 64) + i % 64 / 8 := rfl
  have hhigh : highAddress i = 16 * (i / 64) + 8 + i % 64 / 8 := rfl
  unfold indexAt
  rw [← hlow, ← hhigh, ← hcol, ← pix_ilv, BitVec.ofNat_toNat, BitVec.setWidth_eq]

/-- Both bytes of a row of a whole tile are in the byte block (R67). -/
theorem rowAddresses_lt {i n : Nat} (hi : i < 64 * (n / 16)) :
    lowAddress i < n ∧ highAddress i < n := by
  simp only [lowAddress, highAddress, rowOf, tileOf, Config.TILE_BYTES, Config.TILE_PIXELS,
    Config.TILE_DIM]
  omega

theorem State.block_getD (s : State) {a : Nat} (ha : a < s.len) :
    s.block.getD a 0#8 = s.pt.peek a := by
  rw [List.getD_eq_getElem _ _ (by simpa using ha), State.block_getElem]

/-- The pixel indices of the byte block, position by position (R103, R108). -/
theorem decodeTiles_block_getElem? (s : State) {i : Nat} (hi : i < 64 * (s.len / 16)) :
    (decodeTiles s.block)[i]? = some (indexAt s i) := by
  obtain ⟨hlow, hhigh⟩ := rowAddresses_lt hi
  rw [decodeTiles_closed _ (by simpa using hi), s.block_getD hlow, s.block_getD hhigh,
    pix_ilv_eq_indexAt]

/-- The colours RUN composes, position by position (R118, R146). -/
theorem palmapseq_block_getElem? (s : State) {i : Nat} (hi : i < 64 * (s.len / 16)) :
    (s.palmapseq (decodeTiles s.block))[i]? = some (colourAt s i) := by
  rw [State.palmapseq, List.getElem?_map, decodeTiles_block_getElem? s hi]
  rfl

@[simp] theorem palmapseq_block_length (s : State) :
    (s.palmapseq (decodeTiles s.block)).length = 64 * (s.len / 16) := by
  rw [State.palmapseq, List.length_map, decodeTiles_length, State.block_length]

/-- Where RUN completes, the whole tiles fit the grid and RAST is the composed raster (R146). -/
theorem exec_run_rast {s t : State} (h : exec .run s = .next t) :
    s.len / 16 ≤ 256 ∧
      t.rast = composeFrom 16 0 (s.palmapseq (decodeTiles s.block)) s.rast := by
  cases exec_transition h with
  | value hands => cases hands
  | trap takes hidle => simp [Takes] at takes
  | run hphase h16 hfits => exact ⟨hfits, rfl⟩

/-- RUN writes the colour of every flat position of the block at its coordinate (R146). -/
theorem exec_run_written {s t : State} (h : exec .run s = .next t) {i : Nat}
    (hi : i < 64 * (s.len / 16)) : t.rast.written (coordAt i) = some (colourAt s i) := by
  obtain ⟨hfits, hrast⟩ := exec_run_rast h
  have hplaced := composeFrom_placed (s.palmapseq (decodeTiles s.block)) 0 i s.rast
    (by rw [palmapseq_block_length]; omega) (by rwa [palmapseq_block_length])
  rw [Nat.zero_add, coordOf_sixteen, ← hrast, palmapseq_block_getElem? s hi] at hplaced
  exact hplaced

/-- PLACE is a bijection onto the raster (R128, R129, R130): one position below 16384 for every
coordinate. -/
theorem coordAt_covers_once {xy : Coord} (h : xy.InRaster) :
    ∃ i, i < 16384 ∧ coordAt i = xy ∧ ∀ j, coordAt j = xy → j = i := by
  simp only [← coordOf_sixteen]
  refine ⟨_, ?_, coordOf_surjective h, fun j hj =>
    coordOf_injective (hj.trans (coordOf_surjective h).symm)⟩
  obtain ⟨hx, hy⟩ := h
  omega

/-- Settles O45: PLACE reaches every coordinate from one position below 16384, and a run of 4096
bytes writes exactly those positions. -/
theorem canonicalRunFillsRaster : Obligations.CanonicalRunFillsRaster := by
  intro s t _ hlen hrun xy hxy
  obtain ⟨i, hi, rfl, hunique⟩ := coordAt_covers_once hxy
  exact ⟨i, hi, rfl, hunique, exec_run_written hrun (by omega)⟩

end Sys2Proof.Machine
end

section
/-!
PROOF. H_LOADB (spec/45_sequencer_and_host.md R142): the byte block is loaded as a whole, where its
length is within LEN_MAX.
-/
namespace Sys2Proof.Machine

/-- The capacity check is the bound LEN_MAX, where there is one (R142). -/
theorem withinCapacity_iff (lenMax : Option Nat) (n : Nat) :
    withinCapacity lenMax n = true ↔ ∀ m, lenMax = some m → n ≤ m := by
  cases lenMax <;> simp [withinCapacity]

/-- After a load every address reads as its byte, and no address beyond them exists (R30, R142). -/
theorem State.ptRead_setBlock (s : State) (bs : List Byte) (a : Nat) :
    (s.setBlock (Memory.ofBytes bs) bs.length).ptRead a = bs[a]? := by
  by_cases ha : a < bs.length
  · rw [List.getElem?_eq_getElem ha]
    exact (State.ptRead_eq_some _ a _).2 ⟨ha, (Memory.peek_ofBytes bs ha).symm⟩
  · rw [List.getElem?_eq_none (by omega)]
    exact if_neg ha

theorem loadBlock_within {bs : List Byte} {s : State}
    (h : withinCapacity s.cfg.lenMax bs.length = true) :
    loadBlock bs s = .next ((s.setBlock (Memory.ofBytes bs) bs.length).setOut .nothing) :=
  if_pos h

theorem loadBlock_over {bs : List Byte} {s : State}
    (h : ¬ withinCapacity s.cfg.lenMax bs.length = true) :
    loadBlock bs s = .refused (.overCapacity bs.length) :=
  if_neg h

/-- In IDLE H_LOADB is the load (R142, R153). -/
theorem exec_hLoadb_idle {s : State} (bs : List Byte) (h : s.phase = .idle) :
    exec (.hLoadb bs) s = loadBlock bs s :=
  onlyIn_pos _ _ h

/-- Settles O35: H_LOADB is the load in IDLE, the capacity check decides between the loaded block,
which reads back by `State.ptRead_setBlock`, and the refusal. -/
theorem loadBytesFillsPatternMemory : Obligations.LoadBytesFillsPatternMemory := by
  refine fun s bytes => ⟨fun hidle hfits => ⟨Memory.ofBytes bytes, ?_, ?_⟩,
    fun hidle m hmax hover => ?_, onlyIn_neg _ _⟩
  · rw [exec_hLoadb_idle bytes hidle, loadBlock_within ((withinCapacity_iff _ _).2 hfits)]
    rfl
  · exact s.ptRead_setBlock bytes
  · rw [exec_hLoadb_idle bytes hidle, loadBlock_over]
    intro hfits
    exact absurd ((withinCapacity_iff _ _).1 hfits m hmax) (by omega)

end Sys2Proof.Machine
end

section
/-!
PROOF. STEP and RUN (spec/45_sequencer_and_host.md R146 to R148): what each answers, as one state,
and that the steps of CORE compose the same raster.
-/
namespace Sys2Proof.Machine

open Sys2Proof.Claims

/-- The colour of a flat position, as a pixel step computes it from the two bytes of its row
(R108, R117, R147). -/
theorem palmap_pix_eq_colourAt (s : State) (i : Nat) :
    s.palmap (pix (ilv (s.pt.peek (lowAddress i)) (s.pt.peek (highAddress i))) (columnOf i)) =
      colourAt s i := by
  rw [pix_ilv_eq_indexAt]
  rfl

/-- The completing step (R147). -/
theorem exec_step_finish {s : State} (hrun : s.phase = .run) (hk : s.k = 64 * (s.len / 16)) :
    exec .step s = .next { s with phase := .done, out := .nothing } :=
  (onlyIn_pos _ _ hrun).trans (if_pos hk)

/-- The step that places the pixel at K: both bytes of its row exist and K is in the grid (R147). -/
theorem exec_step_pixel {s : State} (hrun : s.phase = .run) (hk : s.k < 64 * (s.len / 16))
    (hfits : s.len / 16 ≤ 256) :
    exec .step s = .next { s with
      rast := s.rast.write (coordAt s.k) (colourAt s s.k), k := s.k + 1, out := .nothing } := by
  obtain ⟨hlow, hhigh⟩ := rowAddresses_lt hk
  have hne : s.k ≠ Config.TILE_PIXELS * s.nt := Nat.ne_of_lt hk
  have hplace : s.place s.k = .value (coordAt s.k) :=
    place_value.2 ⟨by omega, (coordOf_sixteen s.k).symm⟩
  simp only [exec, execStep, onlyIn_pos _ _ hrun, if_neg hne, pixelStep,
    (s.ptRead_eq_some _ _).2 ⟨hlow, rfl⟩, (s.ptRead_eq_some _ _).2 ⟨hhigh, rfl⟩, hplace,
    conclude_value, palmap_pix_eq_colourAt]
  rfl

/-- RUN on whole tiles that fit the grid: the block's colours composed from position 0 on, K their
number, PHASE DONE (R146). -/
theorem exec_run_eq {s : State} (hrun : s.phase = .run) (h16 : s.len % 16 = 0)
    (hfits : s.len / 16 ≤ 256) :
    exec .run s = .next { s with
      rast := composeFrom 16 0 (s.palmapseq (decodeTiles s.block)) s.rast
      k := 64 * (s.len / 16), phase := .done, out := .nothing } := by
  have hdec : ptdec s.block = .value (decodeTiles s.block) :=
    ptdec_value.2 ⟨by rwa [State.block_length], rfl⟩
  have hcomp : s.compose (s.palmapseq (decodeTiles s.block)) =
      .value (composeFrom 16 0 (s.palmapseq (decodeTiles s.block)) s.rast) :=
    compose_value.2 ⟨by rw [palmapseq_block_length]; omega,
      by rw [palmapseq_block_length]; omega, rfl⟩
  simp only [exec, execRun, onlyIn_pos _ _ hrun, hdec, conclude_value, hcomp,
    palmapseq_block_length]
  rfl

/-- Settles O40, by the two steps of RUN: `exec_step_finish` and `exec_step_pixel`. -/
theorem stepPlacesOnePixel : Obligations.StepPlacesOnePixel := by
  refine fun s => ⟨onlyIn_neg _ _, exec_step_finish, fun hrun hk hfits =>
    ⟨_, exec_step_pixel hrun hk hfits, Raster.written_write_self _ _ _, fun xy hxy hne => ?_⟩⟩
  exact Raster.written_write_ne _ _ (coordOf_inRaster (by omega)) hxy hne

/-- Settles O41: the state RUN answers, its raster entry by entry as COMPOSE leaves it. -/
theorem runWritesEveryPixel : Obligations.RunWritesEveryPixel := by
  rintro s ⟨hrun, -, h16, hfits⟩
  have hexec := exec_run_eq hrun h16 hfits
  refine ⟨_, hexec, fun i hi => exec_run_written hexec hi, fun xy hxy hoff => ?_⟩
  refine composeFrom_other _ 0 s.rast hxy (by rw [palmapseq_block_length]; omega) ?_
  intro j _ hj
  exact hoff j (by rwa [palmapseq_block_length, Nat.zero_add] at hj)

/-- The colours of the block from position `i` on begin with the colour of `i` (R118, R146). -/
theorem palmapseq_block_drop (s : State) {i : Nat} (hi : i < 64 * (s.len / 16)) :
    (s.palmapseq (decodeTiles s.block)).drop i =
      colourAt s i :: (s.palmapseq (decodeTiles s.block)).drop (i + 1) := by
  obtain ⟨hlt, hcolour⟩ := List.getElem?_eq_some_iff.1 (palmapseq_block_getElem? s hi)
  rw [List.drop_eq_getElem_cons hlt, hcolour]

/-- With `n` pixels still to be placed, `n + 1` steps of CORE compose the colours from K on and end
the run (R147, R148). -/
theorem coreSteps_eq (n : Nat) {s : State} (hrun : s.phase = .run) (hfits : s.len / 16 ≤ 256)
    (hn : s.k + n = 64 * (s.len / 16)) :
    coreSteps (n + 1) s = .next { s with
      rast := composeFrom 16 s.k ((s.palmapseq (decodeTiles s.block)).drop s.k) s.rast
      k := 64 * (s.len / 16), phase := .done, out := .nothing } := by
  induction n generalizing s with
  | zero =>
    have hnone : (s.palmapseq (decodeTiles s.block)).drop s.k = [] :=
      List.drop_eq_nil_of_le (by rw [palmapseq_block_length]; omega)
    simp only [coreSteps, exec_step_finish hrun hn, hnone, composeFrom, ← hn, Nat.add_zero]
  | succ n ih =>
    have hk : s.k < 64 * (s.len / 16) := by omega
    -- The pixel at K is the first of the colours left, and the step changes none of them.
    rw [palmapseq_block_drop s hk, coreSteps, exec_step_pixel hrun hk hfits]
    have hrest : s.k + 1 + n = 64 * (s.len / 16) := by omega
    exact ih hrun hfits hrest

/-- Settles O42: from K = 0 the steps compose what RUN composes, by `coreSteps_eq`. -/
theorem stepsAgreeWithRun : Obligations.StepsAgreeWithRun := by
  rintro s ⟨hrun, hk, h16, hfits⟩
  rw [coreSteps_eq _ hrun hfits (by omega), exec_run_eq hrun h16 hfits, hk, List.drop_zero]

end Sys2Proof.Machine
end

section
/-!
PROOF. The phase table (spec/45_sequencer_and_host.md R153): each row's operation is refused for its
phase by its guard alone.
-/
namespace Sys2Proof.Machine

open Sys2Proof.Claims

/-- An outcome that is no refusal for the phase (R153). -/
def NotByPhase (o : Outcome) : Prop := ∀ m p, o ≠ .refused (.wrongPhase m p)

theorem notByPhase_next (s : State) : NotByPhase (.next s) := fun _ _ => nofun

theorem notByPhase_fault (f : Fault) : NotByPhase (.fault f) := fun _ _ => nofun

theorem notByPhase_handOver (r : Result) (s : State) : NotByPhase (handOver r s) :=
  notByPhase_next _

theorem notByPhase_raiseError (e : ErrKind) (info : ErrInfo) (s : State) :
    NotByPhase (raiseError e info s) := raiseError_ne_wrongPhase e info s

/-- Taking up a stage function's answer adds no refusal for the phase. -/
theorem notByPhase_conclude {α : Type} {s : State} {a : Answer α} {k : α → Outcome}
    (ha : ∀ m p, a ≠ .refused (.wrongPhase m p)) (hk : ∀ v, NotByPhase (k v)) :
    NotByPhase (conclude s a k) := by
  cases a with
  | value v => exact hk v
  | raised e info => exact notByPhase_raiseError e info s
  | refused r =>
    rintro m p ⟨⟩
    exact ha m p rfl

theorem tokenize_refused {ws : List Char} {text : Text} {r : Refusal}
    (h : tokenize ws text = .refused r) : r = .nonAscii := by
  unfold tokenize at h
  split at h <;> simp_all

/-- HEXPARSE is refused for a character above U+007F alone (R81). -/
theorem hexparse_refused {ws : List Char} {text : Text} {r : Refusal}
    (h : hexparse ws text = .refused r) : r = .nonAscii := by
  rcases (Answer.andThen_eq_refused _ _ _).1 h with h | ⟨toks, -, h⟩
  · exact tokenize_refused h
  · exact absurd h (hextokAll_ne_refused toks r)

/-- A token sequence is refused as a palette for its length alone (R114). -/
theorem palOfTokens_refused {policy : Config.PalExtraPolicy} {toks : List Token} {r : Refusal}
    (h : palOfTokens policy toks = .refused r) : r = .tooManyPaletteTokens toks.length := by
  unfold palOfTokens at h
  split at h
  · simp [Answer.andThen_eq_refused, palSlots_ne_refused] at h
  · cases policy with
    | refuse => exact (Answer.refused.inj h).symm
    | error => simp [Answer.andThen_eq_refused, palSlots_ne_refused] at h
    | ignore => simp [Answer.andThen_eq_refused, palSlots_ne_refused] at h

/-- PALPARSE is refused for its characters or for its number of tokens (R81, R114). -/
theorem palparse_refused {cfg : Config.Params} {text : Text} {r : Refusal}
    (h : palparse cfg text = .refused r) : r = .nonAscii ∨ ∃ n, r = .tooManyPaletteTokens n := by
  rcases (Answer.andThen_eq_refused _ _ _).1 h with h | ⟨toks, -, h⟩
  · exact .inl (tokenize_refused h)
  · exact .inr ⟨_, palOfTokens_refused h⟩

theorem notByPhase_loadBlock (bs : List Byte) (s : State) : NotByPhase (loadBlock bs s) := by
  by_cases h : withinCapacity s.cfg.lenMax bs.length = true
  · rw [loadBlock_within h]
    exact notByPhase_next _
  · rw [loadBlock_over h]
    exact fun _ _ => nofun

theorem notByPhase_startRun (s : State) : NotByPhase (startRun s) := by
  unfold startRun
  split
  · exact notByPhase_raiseError _ _ _
  split
  · exact notByPhase_raiseError _ _ _
  split
  · exact notByPhase_raiseError _ _ _
  · exact notByPhase_handOver _ _

theorem notByPhase_pixelStep (s : State) : NotByPhase (pixelStep s) := by
  unfold pixelStep
  split
  · exact notByPhase_fault _
  split
  · exact notByPhase_fault _
  · exact notByPhase_conclude (fun _ _ => place_ne_refused) fun _ => notByPhase_handOver _ _

/-- What a row of the phase table says of an operation's outcome (R153). -/
def KeepsRow (name : String) (phases : List Phase) (s : State) (o : Outcome) : Prop :=
  (s.phase ∈ phases → NotByPhase o) ∧ (s.phase ∉ phases → o = .refused (.wrongPhase name s.phase))

/-- The row of an operation that one phase accepts. -/
theorem keepsRow_onlyIn {p : Phase} {name : String} {s : State} {o : Outcome} (ho : NotByPhase o) :
    KeepsRow name [p] s (onlyIn p name s o) := by
  refine ⟨fun hin => ?_, fun hout => onlyIn_neg _ _ (by simpa using hout)⟩
  rw [onlyIn_pos _ _ (by simpa using hin)]
  exact ho

/-- The row of H_RESET, which RUN alone does not accept (R140). -/
theorem keepsRow_hReset (s : State) :
    KeepsRow "H_RESET" [.idle, .done, .error] s (execHReset s) := by
  unfold execHReset
  by_cases hrun : s.phase = .run
  · rw [notIn_pos _ _ hrun]
    exact ⟨fun hin => by simp [hrun] at hin, fun _ => rfl⟩
  · rw [notIn_neg _ _ hrun]
    refine ⟨fun _ => notByPhase_next _, fun hout => ?_⟩
    cases hp : s.phase <;> simp [hp] at hrun hout

/-- The row of H_STATUS, which every phase accepts (R149). -/
theorem keepsRow_hStatus (s : State) :
    KeepsRow "H_STATUS" [.idle, .run, .done, .error] s (execHStatus s) := by
  refine ⟨fun _ => notByPhase_handOver _ _, fun hout => ?_⟩
  cases hp : s.phase <;> simp [hp] at hout

/-- Every row of the phase table is kept (R153). -/
theorem exec_keepsRow {i : Instr} {name : String} {phases : List Phase} (s : State)
    (h : phaseTable i = some (name, phases)) : KeepsRow name phases s (exec i s) := by
  cases i <;> cases h
  case hReset => exact keepsRow_hReset s
  case hSetpal text =>
    refine keepsRow_onlyIn
      (notByPhase_conclude (fun m p hpar => ?_) fun _ => notByPhase_handOver _ _)
    obtain h | ⟨n, h⟩ := palparse_refused hpar <;> cases h
  case hLoadb bs => exact keepsRow_onlyIn (notByPhase_loadBlock bs s)
  case hLoad text =>
    exact keepsRow_onlyIn (notByPhase_conclude (fun m p hpar => nomatch hexparse_refused hpar)
      fun bs => notByPhase_loadBlock bs s)
  case hStart => exact keepsRow_onlyIn (notByPhase_startRun _)
  case step =>
    refine keepsRow_onlyIn ?_
    split
    · exact notByPhase_handOver _ _
    · exact notByPhase_pixelStep s
  case hStatus => exact keepsRow_hStatus s
  case hRead => exact keepsRow_onlyIn (notByPhase_handOver _ _)

/-- Settles O49, row by row (`exec_keepsRow`): a guard refuses by name, and no operation behind its
guard is refused for its phase. -/
theorem operationsByPhase : Obligations.OperationsByPhase :=
  fun _ _ _ s h => exec_keepsRow s h

end Sys2Proof.Machine
end

section
/-!
PROOF. The serial form (log 2): the decoder undoes the encoder on every well-formed operation, and
accepts nothing else.
-/
namespace Sys2Proof

theorem readText_encode (text : Text) (rest : List Byte) :
    readSeq readChar (encodeSeq encodeChar text ++ rest) = .ok (text, rest) :=
  readSeq_encode readChar encodeChar readChar_encode text rest

/-- The operands read back after the operation's place in the table of R71. -/
theorem readOperands_encode {i : Instr} (h : wellFormed i = true) (rest : List Byte) :
    readOperands (opcode i) (encodeOperands i ++ rest) = .ok (i, rest) := by
  cases i <;> simp only [opcode, encodeOperands, readOperands, List.nil_append]
  case tokenize | hextok | hexparse | paltok | palparse | hSetpal | hLoad =>
    rw [readText_encode, asRead_ok]
  case ptdec | hLoadb => rw [readSeq_encode readByte encodeByte readByte_encode, asRead_ok]
  case palmapseq => rw [readSeq_encode readIndex encodeIndex readIndex_encode, asRead_ok]
  case compose => rw [readSeq_encode readRGB encodeRGB readRGB_encode, asRead_ok]
  case palmap => rw [readIndex_encode, asRead_ok]
  case ilv | rowdec => rfl
  case pix => rw [List.append_assoc, readWord_encode, andRead_ok, readColumn_encode, asRead_ok]
  case tdec tile =>
    have hlen : tile.length = 16 := by simpa [wellFormed] using h
    rw [← hlen, readCount_append, asRead_ok]
  case place n =>
    have hlt : n < 2 ^ 32 := by simpa [wellFormed] using h
    rw [readFlat_encode hlt, asRead_ok]

theorem opcode_toNat (i : Instr) : (BitVec.ofNat 8 (opcode i)).toNat = opcode i := by
  cases i <;> rfl

/-- Settles O1: byte 0 is the operation's place in the table, and its operands read back behind. -/
theorem decodeEncodeRoundTrip : Obligations.DecodeEncodeRoundTrip := by
  intro i rest h
  rw [encode, List.cons_append, decode, opcode_toNat, readOperands_encode h, andRead_ok, if_pos h]

/-- A reader accepts nothing but what a writer writes. -/
def ReadsOnly {α : Type} (elem : List Byte → Read α) (enc : α → List Byte) : Prop :=
  ∀ bs a rest, elem bs = .ok (a, rest) → bs = enc a ++ rest

theorem readByte_readsOnly : ReadsOnly readByte encodeByte := by
  rintro (_ | ⟨b, bs⟩) a rest h <;> cases h
  rfl

theorem readRGB_readsOnly : ReadsOnly readRGB encodeRGB := by
  intro bs a rest h
  unfold readRGB at h
  split at h <;> cases h
  rfl

theorem readWord_readsOnly : ReadsOnly readWord encodeWord := by
  intro bs a rest h
  unfold readWord at h
  split at h <;> cases h
  rw [encodeWord, BitVec.extractLsb'_append_eq_right, BitVec.extractLsb'_append_eq_left]
  rfl

/-- Byte `k` of a number made of bytes. -/
theorem byteOf_eq {n k : Nat} {b : Byte} (h : n / 256 ^ k % 256 = b.toNat) : byteOf n k = b :=
  BitVec.eq_of_toNat_eq (by rw [byteOf_toNat, h])

theorem readFlat_readsOnly : ReadsOnly readFlat encodeFlat := by
  intro bs a rest h
  unfold readFlat at h
  split at h <;> cases h
  rename_i b0 b1 b2 b3
  rw [encodeFlat, byteOf_eq (b := b0) (by omega), byteOf_eq (b := b1) (by omega),
    byteOf_eq (b := b2) (by omega), byteOf_eq (b := b3) (by omega)]
  rfl

theorem readChar_readsOnly : ReadsOnly readChar encodeChar := by
  intro bs a rest h
  unfold readChar at h
  split at h
  · rename_i b0 b1 b2 bs
    simp only at h
    split at h <;> cases h
    rename_i hn
    rw [encodeChar, hn, byteOf_eq (b := b0) (by omega), byteOf_eq (b := b1) (by omega),
      byteOf_eq (b := b2) (by omega)]
    rfl
  · cases h

/-- A byte below `2 ^ k` is the byte of its lowest `k` bits. -/
theorem setWidth_setWidth_of_lt {b : Byte} {k : Nat} (h : b.toNat < 2 ^ k) :
    (b.setWidth k).setWidth 8 = b := by
  apply BitVec.eq_of_toNat_eq
  rw [BitVec.toNat_setWidth, BitVec.toNat_setWidth, Nat.mod_eq_of_lt h, Nat.mod_eq_of_lt b.isLt]

theorem readColumn_readsOnly : ReadsOnly readColumn encodeColumn := by
  rintro (_ | ⟨b, bs⟩) a rest h
  · cases h
  · rw [readColumn] at h
    split at h <;> cases h
    rename_i hb
    rw [encodeColumn, setWidth_setWidth_of_lt hb]
    rfl

theorem readIndex_readsOnly : ReadsOnly readIndex encodeIndex := by
  rintro (_ | ⟨b, bs⟩) a rest h
  · cases h
  · rw [readIndex] at h
    split at h <;> cases h
    rename_i hb
    rw [encodeIndex, setWidth_setWidth_of_lt hb]
    rfl

theorem readCount_eq_ok {n : Nat} {bs tile rest : List Byte}
    (h : readCount n bs = .ok (tile, rest)) : tile.length = n ∧ bs = tile ++ rest := by
  induction n generalizing bs tile with
  | zero => cases h; exact ⟨rfl, rfl⟩
  | succ n ih =>
    cases bs with
    | nil => cases h
    | cons b bs =>
      obtain ⟨tail, htail, rfl⟩ := (asRead_eq_ok _ _ _ _).1 h
      obtain ⟨hlen, rfl⟩ := ih htail
      exact ⟨congrArg (· + 1) hlen, rfl⟩

/-- A sequence is read from nothing but its serial form, if each element is. -/
theorem readMarked_readsOnly {α : Type} {elem : List Byte → Read α} {enc : α → List Byte}
    (h : ReadsOnly elem enc) (fuel : Nat) : ReadsOnly (readMarked elem fuel) (encodeSeq enc) := by
  induction fuel with
  | zero => intro bs xs rest hread; cases hread
  | succ fuel ih =>
    rintro (_ | ⟨mark, bs⟩) xs rest hread
    · cases hread
    · rw [readMarked] at hread
      split at hread
      · rename_i hmark
        cases hread
        rw [hmark]
        rfl
      split at hread
      · rename_i hmark
        obtain ⟨a, mid, ha, hseq⟩ := (andRead_eq_ok _ _ _ _).1 hread
        obtain ⟨tail, htail, rfl⟩ := (asRead_eq_ok _ _ _ _).1 hseq
        rw [hmark, h _ _ _ ha, ih _ _ _ htail, encodeSeq, List.cons_append, List.append_assoc]
      · cases hread

theorem readSeq_readsOnly {α : Type} {elem : List Byte → Read α} {enc : α → List Byte}
    (h : ReadsOnly elem enc) : ReadsOnly (readSeq elem) (encodeSeq enc) :=
  fun bs => readMarked_readsOnly h bs.length bs

/-- An operation with one operand is read from nothing but that operand's serial form. -/
theorem asRead_readsOnly {α : Type} {f : α → Instr} {elem : List Byte → Read α}
    {enc : α → List Byte} (h : ReadsOnly elem enc) {bs rest : List Byte} {i : Instr}
    (hread : asRead f (elem bs) = .ok (i, rest)) : ∃ a, f a = i ∧ bs = enc a ++ rest := by
  obtain ⟨a, ha, hi⟩ := (asRead_eq_ok _ _ _ _).1 hread
  exact ⟨a, hi, h _ _ _ ha⟩

/-- An operation with two operands is read from nothing but the serial forms of both. -/
theorem andRead_readsOnly {α β : Type} {f : α → β → Instr} {elem : List Byte → Read α}
    {enc : α → List Byte} {elem' : List Byte → Read β} {enc' : β → List Byte}
    (h : ReadsOnly elem enc) (h' : ReadsOnly elem' enc') {bs rest : List Byte} {i : Instr}
    (hread : andRead (elem bs) (fun a mid => asRead (f a) (elem' mid)) = .ok (i, rest)) :
    ∃ a b, f a b = i ∧ bs = enc a ++ enc' b ++ rest := by
  obtain ⟨a, mid, ha, hmid⟩ := (andRead_eq_ok _ _ _ _).1 hread
  obtain ⟨b, hi, rfl⟩ := asRead_readsOnly h' hmid
  exact ⟨a, b, hi, by rw [h _ _ _ ha, List.append_assoc]⟩

/-- The operands are read in the operation's own place and from its own serial form alone. -/
theorem readOperands_eq_ok {op : Nat} {bs rest : List Byte} {i : Instr}
    (h : readOperands op bs = .ok (i, rest)) : opcode i = op ∧ bs = encodeOperands i ++ rest := by
  have htext := readSeq_readsOnly readChar_readsOnly
  have hbytes := readSeq_readsOnly readByte_readsOnly
  unfold readOperands at h
  -- `h_(n + 1)` is row `n` of the table of R71, and `h_24` is no row.
  split at h
  case h_1 | h_2 | h_3 | h_9 | h_10 | h_16 | h_18 =>
    obtain ⟨text, rfl, rfl⟩ := asRead_readsOnly htext h
    exact ⟨rfl, rfl⟩
  case h_8 | h_17 =>
    obtain ⟨block, rfl, rfl⟩ := asRead_readsOnly hbytes h
    exact ⟨rfl, rfl⟩
  case h_4 | h_6 =>
    obtain ⟨low, high, rfl, rfl⟩ := andRead_readsOnly readByte_readsOnly readByte_readsOnly h
    exact ⟨rfl, rfl⟩
  case h_5 =>
    obtain ⟨w, c, rfl, rfl⟩ := andRead_readsOnly readWord_readsOnly readColumn_readsOnly h
    exact ⟨rfl, rfl⟩
  case h_7 =>
    obtain ⟨tile, htile, rfl⟩ := (asRead_eq_ok _ _ _ _).1 h
    exact ⟨rfl, (readCount_eq_ok htile).2⟩
  case h_11 =>
    obtain ⟨n, rfl, rfl⟩ := asRead_readsOnly readIndex_readsOnly h
    exact ⟨rfl, rfl⟩
  case h_12 =>
    obtain ⟨idx, rfl, rfl⟩ := asRead_readsOnly (readSeq_readsOnly readIndex_readsOnly) h
    exact ⟨rfl, rfl⟩
  case h_13 =>
    obtain ⟨n, rfl, rfl⟩ := asRead_readsOnly readFlat_readsOnly h
    exact ⟨rfl, rfl⟩
  case h_14 =>
    obtain ⟨rgb, rfl, rfl⟩ := asRead_readsOnly (readSeq_readsOnly readRGB_readsOnly) h
    exact ⟨rfl, rfl⟩
  case h_24 => cases h
  -- The operations without operands.
  all_goals
    cases h
    exact ⟨rfl, rfl⟩

/-- Settles O2: the operands are read from their serial form alone, in the place that byte 0 names,
and an ill-formed operation is refused. -/
theorem decodeAcceptsOnlyEncodings : Obligations.DecodeAcceptsOnlyEncodings := by
  rintro (_ | ⟨op, bs⟩) i rest h
  · cases h
  · obtain ⟨i', rest', hops, hwf⟩ := (andRead_eq_ok _ _ _ _).1 h
    split at hwf <;> cases hwf
    rename_i hi
    obtain ⟨hop, rfl⟩ := readOperands_eq_ok hops
    refine ⟨hi, ?_⟩
    rw [encode, hop, BitVec.ofNat_toNat, BitVec.setWidth_eq, List.cons_append]

/-- Settles O3: each form is read byte by byte (log 2). -/
theorem sampleFormsDecode : Obligations.SampleFormsDecode := by
  unfold Obligations.SampleFormsDecode
  decide

end Sys2Proof
end

section
/-!
PROOF. The step of the machine (log 1), the reset state (spec/70_reset_and_hazards.md R180), and the
invariant: every transition keeps it.
-/
namespace Sys2Proof.Machine

open Sys2Proof.Safety

/-! The step. -/

theorem step_of_fetch {s s' : State} {i : Instr} (h : fetch s = .operation i s') :
    step s = exec i s' := by
  rw [step, h]

/-- Settles O4, by `fetch_decoded`. -/
theorem stepRunsDecodedOperation : Obligations.StepRunsDecodedOperation :=
  fun _ _ _ h => step_of_fetch (fetch_decoded h)

/-- Settles O5: `fetch_empty` chooses by the phase. -/
theorem emptyQueueStep : Obligations.EmptyQueueStep := by
  refine fun s hempty => ⟨fun hrun => step_of_fetch ?_, fun hwait => ?_⟩
  · rw [fetch_empty hempty, if_pos hrun]
  · rw [step, fetch_empty hempty, if_neg hwait]

/-- The bytes of a table word's operation are its serial form (log 2). -/
theorem tableOperationBytes_eq_encode {nbits w : Nat} {i : Instr}
    (h : decodeTableWord nbits w = some i) :
    wellFormed i = true ∧ tableOperationBytes nbits w = encode i := by
  unfold decodeTableWord at h
  split at h <;> cases h
  rename_i rest hdecode
  obtain ⟨hwf, hbytes⟩ := decodeAcceptsOnlyEncodings _ _ _ hdecode
  refine ⟨hwf, ?_⟩
  simp only [tableOperationBytes, hdecode]
  rw [hbytes, List.length_append, Nat.add_sub_cancel_right, List.take_left]

/-- Settles O6: the word's bytes are the operation's serial form, which reads back before whatever
the queue holds. -/
theorem tableWordRunsNext : Obligations.TableWordRunsNext := by
  intro s nbits w i h
  obtain ⟨hwf, hbytes⟩ := tableOperationBytes_eq_encode h
  have hqueue : (s.withFetchWord nbits w).queue = encode i ++ s.queue := by
    rw [← hbytes]
    rfl
  exact step_of_fetch (fetch_decoded (by rw [hqueue, decodeEncodeRoundTrip i s.queue hwf]))

/-- A step that answers a next state waits, or carries out an operation on the state but for its
queue. -/
theorem step_next {s t : State} (h : step s = .next t) :
    t = s ∨ ∃ i q, exec i (s.setQueue q) = .next t := by
  unfold step at h
  split at h
  · rename_i i s' hfetch
    refine .inr ⟨i, s'.queue, ?_⟩
    unfold fetch at hfetch
    split at hfetch
    · split at hfetch <;> cases hfetch
      exact h
    · split at hfetch <;> cases hfetch
      exact h
  · cases h
    exact .inl rfl
  · cases h

/-! Reset. -/

/-- A raster no run has written hands over free values (R131). -/
theorem entry_nil (d i : Nat) : Raster.entry [] d i = Config.freePixel d i := rfl

/-- Where H_RESET answers a next state, it is the reset block (R140). -/
theorem exec_hReset_next {s t : State} (h : exec .hReset s = .next t) : t = s.resetBlock := by
  obtain ⟨-, ht⟩ := (notIn_next _ _ _ _ _).1 h
  exact (Host.Outcome.next.inj ht).symm

/-- Settles O7: both reset states, field by field. -/
theorem resetState : Obligations.ResetState := by
  refine ⟨rfl, rfl, rfl, rfl, rfl, rfl, rfl, rfl, entry_nil, rfl, rfl, rfl, fun s t h => ?_⟩
  cases exec_hReset_next h
  exact ⟨rfl, rfl, rfl, rfl, rfl, rfl, rfl, rfl, entry_nil, rfl, rfl, rfl⟩

/-! The invariant. -/

theorem not_started_of_idle {s : State} (h : s.phase = .idle) : ¬ Started s := by
  simp [Started, h]

/-- A state of IDLE with no error, nothing counted and nothing written meets the invariant, if PT
does. -/
theorem invariant_of_idle {s : State} (hp : s.phase = .idle) (hpt : s.pt.wf s.len = true)
    (hmax : withinCapacity s.cfg.lenMax s.len = true) (herr : s.err = 0#3)
    (hlenw : s.lenw = false) (hk : s.k = 0) (hrast : s.rast = []) : Invariant s where
  pt_wf := hpt
  rast_wf := by rw [hrast]; rfl
  len_max := hmax
  err_iff := by simp [herr, hp]
  err_info := fun h => absurd herr h
  length_ok := fun h => absurd h (not_started_of_idle hp)
  strict_ok := fun h => absurd h (not_started_of_idle hp)
  lenw_ok := fun h => absurd h (not_started_of_idle hp)
  lenw_idle := fun _ => hlenw
  k_run := by simp [hp]
  k_done := by simp [hp]
  k_idle := fun _ => hk
  rast_idle := fun _ => hrast

/-- Settles O8: the reset state is one of IDLE with nothing loaded. -/
theorem resetSatisfiesInvariant : Obligations.ResetSatisfiesInvariant :=
  invariant_of_idle rfl rfl rfl rfl rfl rfl rfl

theorem invariant_resetBlock (s : State) : Invariant s.resetBlock :=
  invariant_of_idle rfl rfl (by cases h : s.cfg.lenMax <;> simp [withinCapacity, h]) rfl rfl rfl rfl

/-- The palette, what was handed over, the draws and the queue are no part of the invariant. -/
theorem invariant_congr {s t : State} (hs : Invariant s) (hpt : t.pt = s.pt) (hlen : t.len = s.len)
    (hrast : t.rast = s.rast) (hcfg : t.cfg = s.cfg) (herr : t.err = s.err)
    (hinfo : t.errinfo = s.errinfo) (hphase : t.phase = s.phase) (hlenw : t.lenw = s.lenw)
    (hk : t.k = s.k) : Invariant t := by
  obtain ⟨⟩ := t
  cases hpt; cases hlen; cases hrast; cases hcfg; cases herr; cases hinfo; cases hphase; cases hlenw
  cases hk
  obtain ⟨⟩ := hs
  constructor <;> assumption

/-- What the invariant says in IDLE. -/
theorem invariant_idle {s : State} (hs : Invariant s) (hp : s.phase = .idle) :
    s.err = 0#3 ∧ s.lenw = false ∧ s.k = 0 ∧ s.rast = [] := by
  have hns := not_started_of_idle hp
  refine ⟨?_, hs.lenw_idle hp, hs.k_idle hns, hs.rast_idle hns⟩
  by_contra herr
  simp [hs.err_iff.1 herr] at hp

/-- A load in IDLE keeps the invariant: PT is canonical and within LEN_MAX (R142). -/
theorem invariant_load {s : State} (hs : Invariant s) (hp : s.phase = .idle) {bs : List Byte}
    (hcap : withinCapacity s.cfg.lenMax bs.length = true) :
    Invariant ((s.setBlock (Memory.ofBytes bs) bs.length).setOut .nothing) := by
  obtain ⟨herr, hlenw, hk, hrast⟩ := invariant_idle hs hp
  exact invariant_of_idle hp (Memory.ofBytes_wf bs) hcap herr hlenw hk hrast

/-- Trap entry from IDLE keeps the invariant: it records an error with its kind of offending value,
and the run has not started (R25, R160). LENW may be written before (R144). -/
theorem invariant_trapEntry {s : State} (hs : Invariant s) (hp : s.phase = .idle) {e : ErrKind}
    {info : ErrInfo} (hrec : recorded e.code info = true) (b : Bool) :
    Invariant (trapEntry e info (s.setLenw b)) where
  pt_wf := hs.pt_wf
  rast_wf := hs.rast_wf
  len_max := hs.len_max
  err_iff := by cases e <;> simp [ErrKind.code]
  err_info := fun _ => hrec
  length_ok := by simp [Started]
  strict_ok := by simp [Started]
  lenw_ok := by simp [Started]
  lenw_idle := by simp
  k_run := by simp
  k_done := by simp
  k_idle := fun _ => hs.k_idle (not_started_of_idle hp)
  rast_idle := fun _ => hs.rast_idle (not_started_of_idle hp)

/-- The state a trap is taken from is the state before, but for LENW. -/
theorem raiseFrom_eq_setLenw (i : Instr) (s : State) :
    ∃ b, raiseFrom i s = s.setLenw b ∧ (i ≠ .hStart → b = s.lenw) := by
  unfold raiseFrom
  split
  · exact ⟨_, rfl, fun h => absurd rfl h⟩
  · exact ⟨s.lenw, rfl, fun _ => rfl⟩

/-- An accepted H_START establishes what the invariant says of a started run (R144, R145). -/
theorem invariant_start {s : State} (hs : Invariant s) (h16 : s.len % 16 = 0)
    (hstrict : ¬ (s.cfg.strictLen = true ∧ s.len ≠ 4096)) (hfits : s.nt ≤ 256)
    (hp : s.phase = .idle) :
    Invariant ((((s.setLenw (lenwOf s.len)).setK 0).setPhase .run).setOut .nothing) where
  pt_wf := hs.pt_wf
  rast_wf := hs.rast_wf
  len_max := hs.len_max
  err_iff := by simp [(invariant_idle hs hp).1]
  err_info := hs.err_info
  length_ok := fun _ => ⟨h16, hfits⟩
  strict_ok := fun _ hst => by_contra fun hne => hstrict ⟨hst, hne⟩
  lenw_ok := fun _ => rfl
  lenw_idle := by simp
  k_run := fun _ => Nat.zero_le _
  k_done := by simp
  k_idle := by simp [Started]
  rast_idle := by simp [Started]

/-- CORE keeps the invariant in RUN where it keeps RAST canonical and moves K up to `64 * NT`, to
all of it where the run is done (R22, R147). -/
theorem invariant_core {s : State} (hs : Invariant s) (hp : s.phase = .run) {r : Raster} {k : Nat}
    {p : Phase} (hr : r.wf = true)
    (hkp : (p = .run ∧ k ≤ 64 * s.nt) ∨ (p = .done ∧ k = 64 * s.nt)) :
    Invariant ((((s.setRast r).setK k).setPhase p).setOut .nothing) := by
  have hstarted : Started s := .inl hp
  have hstarted' : p = .run ∨ p = .done := hkp.imp And.left And.left
  have hne : p ≠ .error ∧ p ≠ .idle := by rcases hstarted' with rfl | rfl <;> decide
  have herr : ¬ s.err ≠ 0#3 := fun h => by simp [hs.err_iff.1 h] at hp
  exact {
    pt_wf := hs.pt_wf
    rast_wf := hr
    len_max := hs.len_max
    err_iff := ⟨fun h => absurd h herr, fun h => absurd h hne.1⟩
    err_info := hs.err_info
    length_ok := fun _ => hs.length_ok hstarted
    strict_ok := fun _ => hs.strict_ok hstarted
    lenw_ok := fun _ => hs.lenw_ok hstarted
    lenw_idle := fun h => absurd h hne.2
    k_run := fun _ => hkp.elim And.right fun h => h.2.le
    k_done := fun h => hkp.elim (fun hrun => nomatch hrun.1.symm.trans h) And.right
    k_idle := fun h => absurd hstarted' h
    rast_idle := fun h => absurd hstarted' h }

/-- Every transition keeps the invariant. -/
theorem invariant_transition {i : Instr} {s t : State} (hs : Invariant s) (h : Transition i s t) :
    Invariant t := by
  cases h with
  | value | composeFails | setpal | status | read =>
    exact invariant_congr hs rfl rfl rfl rfl rfl rfl rfl rfl rfl
  | trap _ hp hrec =>
    obtain ⟨b, hb, -⟩ := raiseFrom_eq_setLenw i s
    rw [hb]
    exact invariant_trapEntry hs hp hrec b
  | @compose _ rgb hp h64 hfits =>
    have hr := composeFrom_wf rgb 0 s.rast hs.rast_wf (by omega)
    exact invariant_congr (invariant_core hs hp hr (.inl ⟨hp, hs.k_run hp⟩))
      rfl rfl rfl rfl rfl rfl rfl rfl rfl
  | reset => exact invariant_resetBlock s
  | loadb hp hcap => exact invariant_load hs hp hcap
  | load hp _ hcap => exact invariant_load hs hp hcap
  | start hp h16 hstrict hfits => exact invariant_start hs h16 hstrict hfits hp
  | run hp h16 hfits =>
    exact invariant_core hs hp
      (composeFrom_wf _ 0 s.rast hs.rast_wf (by rw [palmapseq_block_length]; omega))
      (.inr ⟨rfl, rfl⟩)
  | finish hp hk =>
    exact invariant_congr (invariant_core hs hp hs.rast_wf (.inr ⟨rfl, hk⟩))
      rfl rfl rfl rfl rfl rfl rfl rfl rfl
  | pixel hp hk _ _ hlt =>
    have hr := fun v => Raster.wf_write v hs.rast_wf (coordOf_inRaster hlt)
    have hle := hs.k_run hp
    exact invariant_congr (invariant_core (k := s.k + 1) hs hp (hr _) (.inl ⟨hp, by omega⟩))
      rfl rfl rfl rfl rfl rfl rfl rfl rfl

/-- Settles O9: a step waits or makes a transition, and every transition keeps the invariant. -/
theorem stepKeepsInvariant : Obligations.StepKeepsInvariant := by
  intro s t hs hstep
  obtain rfl | ⟨i, q, h⟩ := step_next hstep
  · exact hs
  · have hs' : Invariant (s.setQueue q) :=
      invariant_congr hs rfl rfl rfl rfl rfl rfl rfl rfl rfl
    exact invariant_transition hs' (exec_transition h)

end Sys2Proof.Machine
end

section
/-!
PROOF. The rules of the whole machine, by cases on its transitions (`exec_transition`).
-/
namespace Sys2Proof.Machine

open Sys2Proof.Safety Sys2Proof.Claims

/-- H_SETPAL, H_LOAD and H_START alone take an error (R23, R161 to R165). -/
theorem raiser_of_takes {i : Instr} {s : State} {e : ErrKind} {info : ErrInfo}
    (h : Takes i s e info) :
    (∃ text, i = .hSetpal text) ∨ (∃ text, i = .hLoad text) ∨ i = .hStart := by
  unfold Takes at h
  split at h
  · exact .inl ⟨_, rfl⟩
  · exact .inr (.inl ⟨_, rfl⟩)
  · exact .inr (.inr rfl)
  · exact h.elim

theorem not_takes_hReset {s : State} {e : ErrKind} {info : ErrInfo} : ¬ Takes .hReset s e info :=
  False.elim

/-- A stage operation that hands over a value is no host operation, STEP or RUN. -/
theorem ne_hReset_of_handsOver {i : Instr} (h : handsOver i = true) : i ≠ .hReset := by
  rintro rfl
  cases h

theorem ne_hStart_of_handsOver {i : Instr} (h : handsOver i = true) : i ≠ .hStart := by
  rintro rfl
  cases h

/-- Settles O50, transition by transition. -/
theorem phaseChangesAreLegal : Obligations.PhaseChangesAreLegal := by
  intro i s t h
  cases exec_transition h with
  | value hands =>
    refine .inr ⟨ne_hReset_of_handsOver hands, ?_⟩
    cases hp : s.phase <;> simp [legalTransition, hp]
  | trap takes hp hrec =>
    refine .inr ⟨?_, ?_⟩
    · rintro rfl
      exact not_takes_hReset takes
    · simp [legalTransition, hp, raiser_of_takes takes]
  | reset hp => exact .inl ⟨rfl, hp, rfl⟩
  | composeFails | status =>
    refine .inr ⟨nofun, ?_⟩
    cases hp : s.phase <;> simp [legalTransition, hp]
  | compose hp | setpal hp | loadb hp | load hp | start hp | run hp | finish hp | pixel hp
  | read hp =>
    exact .inr ⟨nofun, by simp [legalTransition, hp]⟩

theorem code_ne_zero (e : ErrKind) : e.code ≠ 0#3 := by
  cases e <;> decide

/-- Settles O51: of the transitions that leave a phase other than ERROR, trap entry alone leads to
it. -/
theorem trapEntryWritesOnly : Obligations.TrapEntryWritesOnly := by
  intro i s t h herror hs
  cases exec_transition h with
  | trap _ hp hrec =>
    obtain ⟨b, hb, hlenw⟩ := raiseFrom_eq_setLenw i s
    rw [hb]
    exact ⟨hp, code_ne_zero _, hrec, rfl, hlenw⟩
  | value | compose | composeFails | setpal | loadb | load | pixel | status | read =>
    exact absurd herror hs
  | reset | start | run | finish => cases herror

/-- A stage operation that can neither fail nor read the palette is accepted in ERROR (log 13). -/
theorem acceptedInError_of_handsOver {i : Instr} (hands : handsOver i = true)
    (hfail : canFail i = false) (hpal : readsPalette i ≠ true) : acceptedInError i = true := by
  cases i <;> simp_all [handsOver, canFail, readsPalette, acceptedInError]

/-- Settles O52: the transitions that ERROR accepts hand something over and write no register, but
for H_RESET. -/
theorem errorIsStickyUntilReset : Obligations.ErrorIsStickyUntilReset := by
  intro i s t hp h hne
  cases exec_transition h with
  | value hands hfail hpal =>
    refine ⟨hp, rfl, rfl, rfl, acceptedInError_of_handsOver hands (hfail hp) fun hreads => ?_⟩
    exact nomatch hp.symm.trans (hpal hreads)
  | status => exact ⟨hp, rfl, rfl, rfl, rfl⟩
  | reset => exact absurd rfl hne
  | composeFails hp' => exact absurd hp hp'
  | trap _ hp' | compose hp' | setpal hp' | loadb hp' | load hp' | start hp' | run hp' | finish hp'
  | pixel hp' | read hp' => exact nomatch hp.symm.trans hp'

theorem transition_cfg {i : Instr} {s t : State} (h : Transition i s t) : t.cfg = s.cfg := by
  cases h with
  | trap =>
    obtain ⟨b, hb, -⟩ := raiseFrom_eq_setLenw i s
    rw [hb]
    rfl
  | _ => rfl

/-- Settles O53: no transition writes the parameters, and taking an operation from the queue does
not. -/
theorem parametersNeverChange : Obligations.ParametersNeverChange := by
  intro s t h
  obtain rfl | ⟨i, q, h⟩ := step_next h
  · rfl
  · have hcfg : t.cfg = (s.setQueue q).cfg := transition_cfg (exec_transition h)
    exact hcfg

/-- Settles O54, transition by transition. -/
theorem paletteWrittenBySetpalOnly : Obligations.PaletteWrittenBySetpalOnly := by
  intro i s t h hne
  cases exec_transition h with
  | reset => exact .inl rfl
  | setpal hp => exact .inr ⟨⟨_, rfl⟩, hp⟩
  | trap =>
    obtain ⟨b, hb, -⟩ := raiseFrom_eq_setLenw i s
    rw [hb] at hne
    exact absurd rfl hne
  | _ => exact absurd rfl hne

/-- Settles O55, transition by transition. -/
theorem patternMemoryWrittenByLoadsOnly : Obligations.PatternMemoryWrittenByLoadsOnly := by
  intro i s t h
  cases exec_transition h with
  | reset => exact .inr (.inl rfl)
  | loadb hp => exact .inr (.inr ⟨.inl ⟨_, rfl⟩, hp⟩)
  | load hp => exact .inr (.inr ⟨.inr ⟨_, rfl⟩, hp⟩)
  | trap =>
    obtain ⟨b, hb, -⟩ := raiseFrom_eq_setLenw i s
    rw [hb]
    exact .inl ⟨rfl, fun _ => rfl⟩
  | _ => exact .inl ⟨rfl, fun _ => rfl⟩

/-- Settles O56, transition by transition. -/
theorem counterWrites : Obligations.CounterWrites := by
  intro i s t h
  cases exec_transition h with
  | reset => exact .inr (.inl ⟨rfl, rfl⟩)
  | start => exact .inr (.inr (.inl ⟨rfl, rfl⟩))
  | pixel hp => exact .inr (.inr (.inr (.inl ⟨rfl, hp, rfl⟩)))
  | run hp => exact .inr (.inr (.inr (.inr ⟨rfl, hp, rfl⟩)))
  | trap =>
    obtain ⟨b, hb, -⟩ := raiseFrom_eq_setLenw i s
    rw [hb]
    exact .inl rfl
  | _ => exact .inl rfl

/-- Settles O57: H_START writes LENW before its checks, H_RESET clears it, and no other transition
writes it. -/
theorem lengthFlagWrites : Obligations.LengthFlagWrites := by
  intro i s t h
  cases exec_transition h with
  | value hands =>
    exact ⟨fun hi => absurd hi (ne_hStart_of_handsOver hands),
      fun hi => absurd hi (ne_hReset_of_handsOver hands), fun _ _ => rfl⟩
  | trap takes =>
    obtain ⟨b, hb, hne⟩ := raiseFrom_eq_setLenw i s
    refine ⟨?_, ?_, fun hi _ => ?_⟩
    · rintro rfl
      rfl
    · rintro rfl
      exact (not_takes_hReset takes).elim
    · rw [hb, hne hi]
      rfl
  | start => exact ⟨fun _ => rfl, nofun, fun hne => absurd rfl hne⟩
  | reset => exact ⟨nofun, fun _ => rfl, fun _ hne => absurd rfl hne⟩
  | _ => exact ⟨nofun, nofun, fun _ _ => rfl⟩

/-- Settles O58, transition by transition. -/
theorem rasterWrittenByCoreOnly : Obligations.RasterWrittenByCoreOnly := by
  intro i s t h
  cases exec_transition h with
  | reset => exact .inr (.inl rfl)
  | compose hp => exact .inr (.inr ⟨.inr (.inr ⟨_, rfl⟩), hp⟩)
  | run hp => exact .inr (.inr ⟨.inr (.inl rfl), hp⟩)
  | pixel hp => exact .inr (.inr ⟨.inl rfl, hp⟩)
  | trap =>
    obtain ⟨b, hb, -⟩ := raiseFrom_eq_setLenw i s
    rw [hb]
    exact .inl fun _ => rfl
  | _ => exact .inl fun _ => rfl

/-- Settles O59: a value-only operation makes the transition `value` alone. -/
theorem stageOperationsAreFunctions : Obligations.StageOperationsAreFunctions := by
  intro i s t hi h
  cases exec_transition h with
  | value => rfl
  | trap takes =>
    obtain ⟨_, rfl⟩ | ⟨_, rfl⟩ | rfl := raiser_of_takes takes <;> cases hi
  | _ => cases hi

/-- Settles O60: trap entry alone records an error, and `Takes` says which operation takes which. -/
theorem errorsComeFromHostOperations : Obligations.ErrorsComeFromHostOperations := by
  intro i s t h
  cases exec_transition h with
  | reset => exact .inr (.inl rfl)
  | trap takes =>
    refine .inr (.inr ⟨rfl, ?_⟩)
    obtain ⟨text, rfl⟩ | ⟨text, rfl⟩ | rfl := raiser_of_takes takes
    · obtain ⟨rfl, htoken⟩ := palparse_raised takes
      exact .inr (.inl ⟨⟨_, rfl⟩, rfl, htoken⟩)
    · obtain ⟨rfl, htoken⟩ := hexparse_raised takes
      exact .inl ⟨⟨_, rfl⟩, rfl, htoken⟩
    · obtain ⟨rfl, h16, rfl⟩ | ⟨rfl, h16, hstrict, hlen, rfl⟩ | ⟨rfl, h16, hfits, rfl⟩ := takes
      · exact .inr (.inr (.inl ⟨rfl, rfl, h16, rfl⟩))
      · exact .inr (.inr (.inr (.inr ⟨rfl, rfl, h16, hstrict, hlen, rfl⟩)))
      · exact .inr (.inr (.inr (.inl ⟨rfl, rfl, h16, hfits, rfl⟩)))
  | _ => exact .inl ⟨rfl, rfl⟩

end Sys2Proof.Machine
end

section
/-!
PROOF. The stage operations over bytes and pixels, issued on their own: the interleaver
(spec/41_bitplane_interleaver.md), the pattern decoder (spec/42_pattern_decoder.md), the palette
mapper (spec/43_palette_mapper.md) and the compositor (spec/44_tile_compositor.md).
-/
namespace Sys2Proof.Machine

open Sys2Proof.Claims

/-- The same state with two results handed over is the same only for the same result. -/
theorem next_out_injective {s : State} {r r' : Result}
    (h : (.next { s with out := r } : Outcome) = .next { s with out := r' }) : r = r' :=
  congrArg State.out (Host.Outcome.next.inj h)

/-- Outside ERROR an operation on its own goes on with its answer's value (R169; log 12). -/
theorem onItsOwn_of_value {α : Type} {m : String} {s : State} {a : Answer α} {k : α → Outcome}
    {v : α} (hphase : s.phase ≠ .error) (ha : a = .value v) :
    notIn .error m s (onItsOwn s a k) = k v := by
  rw [notIn_neg m _ hphase, ha, onItsOwn_value]

/-- Outside ERROR an operation on its own hands its answer's error over (R71, R169; log 12). -/
theorem onItsOwn_of_raised {α : Type} {m : String} {s : State} {a : Answer α} {k : α → Outcome}
    {e : ErrKind} {info : ErrInfo} (hphase : s.phase ≠ .error) (ha : a = .raised e info) :
    notIn .error m s (onItsOwn s a k) = .next { s with out := .error e info } := by
  rw [notIn_neg m _ hphase, ha, onItsOwn_raised]
  rfl

/-- Outside ERROR an operation on its own is refused with its answer (R81, R114, R133). -/
theorem onItsOwn_of_refused {α : Type} {m : String} {s : State} {a : Answer α} {k : α → Outcome}
    {r : Refusal} (hphase : s.phase ≠ .error) (ha : a = .refused r) :
    notIn .error m s (onItsOwn s a k) = .refused r := by
  rw [notIn_neg m _ hphase, ha, onItsOwn_refused]

/-! The interleaver. -/

theorem exec_ilv (low high : Byte) (s : State) :
    exec (.ilv low high) s = .next { s with out := .word (ilv low high) } := rfl

/-- Settles O14, by the bits of the interleaved word. -/
theorem interleaverBits : Obligations.InterleaverBits := fun s low high =>
  ⟨ilv low high, exec_ilv low high s, fun _ hc =>
    ⟨ilv_getLsbD_high low high hc, ilv_getLsbD_low low high hc⟩⟩

/-- The lowest `2 k` bits of a number are the sum of its pairs of bits. -/
theorem mod_four_pow_eq_sum_pairs (n k : Nat) :
    n % 4 ^ k = ((List.range k).map fun j => (n.testBit (2 * j + 1)).toNat * 2 ^ (2 * j + 1) +
      (n.testBit (2 * j)).toNat * 2 ^ (2 * j)).sum := by
  induction k with
  | zero => simp [Nat.mod_one]
  | succ k ih =>
    have hpow : 4 ^ k = 2 ^ (2 * k) := by rw [Nat.pow_mul]
    have hpair : n / 4 ^ k % 4 =
        (n.testBit (2 * k + 1)).toNat * 2 + (n.testBit (2 * k)).toNat := by
      rw [Nat.toNat_testBit, Nat.toNat_testBit, Nat.pow_succ, ← Nat.div_div_eq_div_mul, ← hpow]
      omega
    rw [List.range_succ, List.map_append, List.sum_append, ← ih, Nat.mod_pow_succ, hpair, hpow,
      List.map_singleton, List.sum_singleton]
    ring

/-- Bit `2 j + 1` of the interleaved word is bit `j` of the high plane, bit `2 j` that of the low
plane (R92). -/
theorem ilv_getLsbD_pair (low high : Byte) {j : Nat} (hj : j < 8) :
    (ilv low high).getLsbD (2 * j + 1) = high.getLsbD j ∧
      (ilv low high).getLsbD (2 * j) = low.getLsbD j := by
  have hhigh := ilv_getLsbD_high low high (c := 7 - j) (by omega)
  have hlow := ilv_getLsbD_low low high (c := 7 - j) (by omega)
  rw [show 7 - (7 - j) = j by omega] at hhigh hlow
  rw [show 15 - 2 * (7 - j) = 2 * j + 1 by omega] at hhigh
  rw [show 14 - 2 * (7 - j) = 2 * j by omega] at hlow
  exact ⟨hhigh, hlow⟩

/-- Settles O15: the word is the sum of its eight pairs of bits. -/
theorem interleaverSum : Obligations.InterleaverSum := by
  refine fun s low high => ⟨ilv low high, exec_ilv low high s, ?_⟩
  rw [← Nat.mod_eq_of_lt (ilv low high).isLt, show 2 ^ 16 = 4 ^ 8 from rfl,
    mod_four_pow_eq_sum_pairs]
  refine congrArg List.sum (List.map_congr_left fun j hj => ?_)
  obtain ⟨hhigh, hlow⟩ := ilv_getLsbD_pair low high (List.mem_range.1 hj)
  rw [BitVec.testBit_toNat, BitVec.testBit_toNat, hhigh, hlow]

/-- The plane of a word: bit `j` is bit `2 j + b` of the word. -/
def planeOf (b : Nat) (w : RowWord) : Byte := BitVec.ofFnLE fun j : Fin 8 => w.getLsbD (2 * j + b)

theorem planeOf_getLsbD (b : Nat) (w : RowWord) {j : Nat} (hj : j < 8) :
    (planeOf b w).getLsbD j = w.getLsbD (2 * j + b) := by
  simp [planeOf, hj]

/-- Interleaving the planes of a word gives the word back (R93). -/
theorem ilv_planeOf (w : RowWord) : ilv (planeOf 0 w) (planeOf 1 w) = w := by
  apply BitVec.eq_of_getLsbD_eq
  intro n hn
  obtain ⟨hhigh, hlow⟩ := ilv_getLsbD_pair (planeOf 0 w) (planeOf 1 w) (j := n / 2) (by omega)
  rw [planeOf_getLsbD _ _ (by omega)] at hhigh hlow
  obtain hn' | hn' : n = 2 * (n / 2) ∨ n = 2 * (n / 2) + 1 := by omega
  · rwa [Nat.add_zero, ← hn'] at hlow
  · rwa [← hn'] at hhigh

/-- The planes of an interleaved word are the bytes it was made of (R93). -/
theorem planeOf_ilv (low high : Byte) :
    planeOf 0 (ilv low high) = low ∧ planeOf 1 (ilv low high) = high := by
  constructor <;> refine BitVec.eq_of_getLsbD_eq fun j hj => ?_
  · rw [planeOf_getLsbD _ _ hj, Nat.add_zero, (ilv_getLsbD_pair low high hj).2]
  · rw [planeOf_getLsbD _ _ hj, (ilv_getLsbD_pair low high hj).1]

/-- Settles O16: the planes of the word are the one pair. -/
theorem interleaverBijective : Obligations.InterleaverBijective := by
  refine fun s w => ⟨(planeOf 0 w, planeOf 1 w), ?_, ?_⟩
  · exact (exec_ilv _ _ s).trans (by rw [ilv_planeOf])
  · rintro ⟨low, high⟩ h
    cases next_out_injective h
    obtain ⟨hlow, hhigh⟩ := planeOf_ilv low high
    rw [hlow, hhigh]

/-! The pattern decoder. -/

theorem exec_pix (w : RowWord) (c : Column) (s : State) :
    exec (.pix w c) s = .next { s with out := .index (pix w c) } := rfl

theorem exec_rowdec (low high : Byte) (s : State) :
    exec (.rowdec low high) s = .next { s with out := .indices (rowdec low high) } := rfl

theorem exec_tdec {tile : List Byte} (h : tile.length = 16) (s : State) :
    exec (.tdec tile) s = .next { s with out := .indices (tdec tile) } :=
  if_pos h

/-- Settles O17, by the value of `pix`. -/
theorem pixExtractsPair : Obligations.PixExtractsPair :=
  fun s w c => ⟨pix w c, exec_pix w c s, pix_toNat w c⟩

/-- Settles O18: column `c` of the row is PIX of the interleaved word. -/
theorem rowDecodesToIndices : Obligations.RowDecodesToIndices := by
  refine fun s low high => ⟨rowdec low high, exec_rowdec low high s, rowdec_length low high,
    fun c => ⟨pix (ilv low high) c, ?_, fun w hw => ?_, pix_ilv low high c⟩⟩
  · rw [rowdec_getElem? low high c.isLt, BitVec.ofNat_toNat, BitVec.setWidth_eq]
  · cases next_out_injective hw
    exact exec_pix _ c s

/-- Settles O19, row by row (`tdec_getElem?`). -/
theorem tileDecodesToIndices : Obligations.TileDecodesToIndices := by
  refine fun s tile htile => ⟨tdec tile, exec_tdec htile s, tdec_length tile,
    fun r hr low high row hlow hhigh hrow c hc => ?_⟩
  cases next_out_injective hrow
  rw [tdec_getElem? tile hr hc, List.getD_eq_getElem?_getD, List.getD_eq_getElem?_getD, hlow, hhigh]
  rfl

/-- Settles O20, tile by tile (`decodeTiles_getElem?`). -/
theorem blockDecodesToIndices : Obligations.BlockDecodesToIndices := by
  refine fun s block h16 hphase => ⟨decodeTiles block,
    exec_ptdec_eq_indices.2 ⟨hphase, h16, rfl⟩, decodeTiles_length block,
    fun t ht tile htile k hk => ?_⟩
  have hlen : ((block.drop (16 * t)).take 16).length = 16 := by
    rw [List.length_take, List.length_drop]
    omega
  cases next_out_injective ((exec_tdec hlen s).symm.trans htile)
  exact decodeTiles_getElem? block ht hk

/-- Settles O21: PTDEC raises for the ragged length, and on its own hands the error over. -/
theorem raggedBlockRaises : Obligations.RaggedBlockRaises :=
  fun _ _ h hphase => onItsOwn_of_raised hphase (if_pos h)

/-! The palette mapper. -/

theorem exec_palmap {s : State} (n : PixelIdx) (h : s.phase = .run) :
    exec (.palmap n) s = .next { s with out := .colour (s.palmap n) } :=
  onlyIn_pos _ _ h

/-- Settles O26: two lookups behind the guard of RUN. -/
theorem palmapLooksUpColour : Obligations.PalmapLooksUpColour :=
  fun s n => ⟨fun h => ⟨s.palmap n, exec_palmap n h, Vector.getElem?_eq_getElem _⟩, onlyIn_neg _ _⟩

/-- Settles O27: PALMAPSEQ maps PALMAP over the indices, behind the guard of RUN. -/
theorem palmapseqIsPointwise : Obligations.PalmapseqIsPointwise := by
  refine fun s idx => ⟨fun h => ⟨s.palmapseq idx, onlyIn_pos _ _ h, List.length_map _,
    fun k n v hk hv => ?_⟩, onlyIn_neg _ _⟩
  cases next_out_injective ((exec_palmap n h).symm.trans hv)
  rw [State.palmapseq, List.getElem?_map, hk]
  rfl

/-! The compositor. -/

theorem exec_place_inside {s : State} {i : Nat} (h : i < 16384) (hphase : s.phase ≠ .error) :
    exec (.place i) s = .next { s with out := .coord (coordAt i) } :=
  onItsOwn_of_value hphase (place_value.2 ⟨h, (coordOf_sixteen i).symm⟩)

/-- PLACE hands over a coordinate of positions of the grid alone (R125). -/
theorem exec_place_eq_coord {s : State} {i : Nat} {xy : Coord}
    (h : exec (.place i) s = .next { s with out := .coord xy }) : coordAt i = xy := by
  simp only [exec, execPlace, notIn_next, onItsOwn_next, handOver_next] at h
  obtain ⟨-, ⟨v, hv, hs⟩ | ⟨e, info, -, hs⟩⟩ := h
  · cases congrArg State.out hs
    exact (coordOf_sixteen i).symm.trans (place_value.1 hv).2.symm
  · cases congrArg State.out hs

/-- Settles O28: PLACE answers the coordinate in the grid and raises outside it. -/
theorem placeGivesCoordinate : Obligations.PlaceGivesCoordinate :=
  fun _ _ => ⟨fun hi hphase => exec_place_inside (by omega) hphase, fun hi hphase =>
    ⟨_, Nat.le_add_right 257 _, onItsOwn_of_raised hphase (if_pos hi)⟩⟩

/-- Settles O29, by `coordOf_surjective` and `coordOf_injective`. -/
theorem placeHasInverse : Obligations.PlaceHasInverse := by
  intro s px py hx hy hphase
  have hsurj := coordOf_surjective (xy := ⟨px, py⟩) ⟨hx, hy⟩
  refine ⟨(exec_place_inside (by omega) hphase).trans ?_, fun i hi => coordOf_injective ?_⟩
  · rw [← coordOf_sixteen, hsurj]
  · exact (exec_place_eq_coord hi).trans hsurj.symm

/-- Settles O30: the composed raster, position by position. -/
theorem composeWritesPlacedEntries : Obligations.ComposeWritesPlacedEntries := by
  intro s rgb hrun h64 hfits
  have hphase : s.phase ≠ .error := by simp [hrun]
  have hlen : 0 + rgb.length ≤ 16384 := by omega
  refine ⟨composeFrom 16 0 rgb s.rast, ?_, fun i v hv => ?_, fun xy hxy hoff => ?_⟩
  · exact (onItsOwn_of_value hphase (compose_value.2 ⟨h64, hfits, rfl⟩)).trans
      (onlyIn_pos _ _ hrun)
  · obtain ⟨hi, -⟩ := List.getElem?_eq_some_iff.1 hv
    have hplaced := composeFrom_placed rgb 0 i s.rast hlen hi
    rwa [Nat.zero_add, hv] at hplaced
  · exact composeFrom_other rgb 0 s.rast hxy hlen fun j _ hj => hoff j (by omega)

/-- Settles O31: COMPOSE raises for the tile count, and on its own hands the error over. -/
theorem composeOverflowRaises : Obligations.ComposeOverflowRaises :=
  fun _ _ hphase h64 hover => onItsOwn_of_raised hphase (compose_raised.2 ⟨h64, hover, rfl, rfl⟩)

/-- Settles O32: both operations check the length before anything else. -/
theorem operandsOutsideFormatAreRefused : Obligations.OperandsOutsideFormatAreRefused :=
  ⟨fun _ _ h => if_neg h, fun _ _ h hphase => onItsOwn_of_refused hphase (if_pos h)⟩

end Sys2Proof.Machine
end

section
/-!
PROOF. The tokens of a text (spec/40_hex_text_parser.md R80, R81): the tokenizer finds the maximal
runs of characters that are not whitespace, and every text has them.
-/
namespace Sys2Proof.Machine

open Sys2Proof.Claims

/-- Whitespace and a token in turn, with whitespace between any two tokens: the tokenizer finds the
tokens, if the text goes on with whitespace or ends (R80). -/
theorem tokenizeFrom_pieces {ws : List Char} (pieces : List (Text × Token)) (trail : Text)
    (hpieces : ∀ p ∈ pieces, Blank ws p.1 ∧ Solid ws p.2) (hgaps : ∀ p ∈ pieces.tail, p.1 ≠ [])
    (htrail : Blank ws trail) :
    tokenizeFrom ws [] (pieces.flatMap (fun p => p.1 ++ p.2) ++ trail) =
      pieces.map (fun p => p.2) := by
  induction pieces with
  | nil => simpa [tokenizeFrom] using tokenizeFrom_blank trail [] htrail
  | cons p ps ih =>
    obtain ⟨hblank, hne, hsolid⟩ := hpieces p List.mem_cons_self
    have hps := fun q hq => hpieces q (List.mem_cons_of_mem p hq)
    -- What follows the token is empty or begins with whitespace: the next gap, or the trail.
    have hbreak : ps.flatMap (fun p => p.1 ++ p.2) ++ trail = [] ∨
        ∃ c v, ps.flatMap (fun p => p.1 ++ p.2) ++ trail = c :: v ∧ c ∈ ws := by
      cases ps with
      | nil =>
        cases trail with
        | nil => exact .inl rfl
        | cons c v => exact .inr ⟨c, v, rfl, htrail c List.mem_cons_self⟩
      | cons q qs =>
        obtain ⟨gap, tok⟩ := q
        cases gap with
        | nil => exact absurd rfl (hgaps _ List.mem_cons_self)
        | cons c gap =>
          exact .inr ⟨c, _, rfl, (hps _ List.mem_cons_self).1 c List.mem_cons_self⟩
    rw [List.flatMap_cons, List.append_assoc, List.append_assoc,
      tokenizeFrom_blank p.1 _ hblank, tokenizeFrom_solid p.2 _ hsolid, List.nil_append,
      tokenizeFrom_break hne hbreak, ih hps fun q hq => hgaps q (List.mem_of_mem_tail hq)]
    rfl

/-- TOKENIZE of an ASCII text answers its tokens (R80). -/
theorem tokenize_eq_tokens {ws : List Char} {text : Text} {toks : List Token}
    (hascii : Ascii text) (h : TokensOf ws text toks) : tokenize ws text = .value toks := by
  obtain ⟨pieces, trail, hpieces, hgaps, htrail, rfl, rfl⟩ := h
  rw [tokenize_ascii ws ((asciiText_iff _).2 hascii),
    tokenizeFrom_pieces pieces trail hpieces hgaps htrail]

/-- Whitespace before a text changes none of its tokens (R80). -/
theorem tokensOf_blank_cons {ws : List Char} {ch : Char} {text : Text} {toks : List Token}
    (h : TokensOf ws text toks) (hch : ch ∈ ws) : TokensOf ws (ch :: text) toks := by
  obtain ⟨pieces, trail, hpieces, hgaps, htrail, rfl, rfl⟩ := h
  cases pieces with
  | nil => exact ⟨[], ch :: trail, nofun, nofun, List.forall_mem_cons.2 ⟨hch, htrail⟩, rfl, rfl⟩
  | cons p ps =>
    obtain ⟨⟨hblank, hsolid⟩, hps⟩ := List.forall_mem_cons.1 hpieces
    refine ⟨(ch :: p.1, p.2) :: ps, trail, ?_, hgaps, htrail, rfl, rfl⟩
    exact List.forall_mem_cons.2 ⟨⟨List.forall_mem_cons.2 ⟨hch, hblank⟩, hsolid⟩, hps⟩

/-- A character that is not whitespace begins a token, or goes before the token the text begins
with (R80). -/
theorem tokensOf_solid_cons {ws : List Char} {ch : Char} {text : Text} {toks : List Token}
    (h : TokensOf ws text toks) (hch : ch ∉ ws) : ∃ toks', TokensOf ws (ch :: text) toks' := by
  obtain ⟨pieces, trail, hpieces, hgaps, htrail, rfl, rfl⟩ := h
  have hnew : Blank ws [] ∧ Solid ws [ch] := ⟨nofun, nofun, by simpa using hch⟩
  match pieces with
  | [] =>
    exact ⟨_, [([], [ch])], trail, List.forall_mem_singleton.2 hnew, nofun, htrail, rfl, rfl⟩
  | ([], tok) :: ps =>
    obtain ⟨⟨hblank, hne, hsolid⟩, hps⟩ := List.forall_mem_cons.1 hpieces
    refine ⟨_, ([], ch :: tok) :: ps, trail, List.forall_mem_cons.2 ⟨⟨hblank, nofun, ?_⟩, hps⟩,
      hgaps, htrail, rfl, rfl⟩
    exact List.forall_mem_cons.2 ⟨hch, hsolid⟩
  | (c :: gap, tok) :: ps =>
    exact ⟨_, ([], [ch]) :: (c :: gap, tok) :: ps, trail, List.forall_mem_cons.2 ⟨hnew, hpieces⟩,
      List.forall_mem_cons.2 ⟨nofun, hgaps⟩, htrail, rfl, rfl⟩

/-- Every text has tokens (R80). -/
theorem exists_tokensOf (ws : List Char) (text : Text) : ∃ toks, TokensOf ws text toks := by
  induction text with
  | nil => exact ⟨[], [], [], nofun, nofun, nofun, rfl, rfl⟩
  | cons ch text ih =>
    obtain ⟨toks, h⟩ := ih
    by_cases hch : ch ∈ ws
    · exact ⟨toks, tokensOf_blank_cons h hch⟩
    · exact tokensOf_solid_cons h hch

/-- Settles O10, by `tokenize_eq_tokens` and `exists_tokensOf`. -/
theorem tokenizeHandsOverTokens : Obligations.TokenizeHandsOverTokens := by
  refine ⟨fun s text toks hascii h => ?_, exists_tokensOf⟩
  simp only [exec, execTokenize, tokenize_eq_tokens hascii h, onItsOwn_value]
  rfl

/-- A stage function that tokenizes a text first goes on with its tokens. -/
theorem tokenize_andThen {α : Type} {ws : List Char} {text : Text} {toks : List Token}
    (f : List Token → Answer α) (hascii : Ascii text) (h : TokensOf ws text toks) :
    (tokenize ws text).andThen f = f toks := by
  rw [tokenize_eq_tokens hascii h]
  rfl

theorem tokenize_andThen_nonAscii {α : Type} (ws : List Char) {text : Text}
    (f : List Token → Answer α) (h : ¬ Ascii text) :
    (tokenize ws text).andThen f = .refused .nonAscii := by
  rw [tokenize_nonAscii ws (mt (asciiText_iff text).1 h)]
  rfl

/-! A host operation takes up its text's answer. -/

/-- In IDLE a host operation is refused with its text (R81, R114). -/
theorem conclude_of_refused {α : Type} {m : String} {s : State} {a : Answer α} {k : α → Outcome}
    {r : Refusal} (hidle : s.phase = .idle) (ha : a = .refused r) :
    onlyIn .idle m s (conclude s a k) = .refused r := by
  rw [onlyIn_pos m _ hidle, ha, conclude_refused]

/-- In IDLE a host operation goes on with its text's value. -/
theorem conclude_of_value {α : Type} {m : String} {s : State} {a : Answer α} {k : α → Outcome}
    {v : α} (hidle : s.phase = .idle) (ha : a = .value v) :
    onlyIn .idle m s (conclude s a k) = k v := by
  rw [onlyIn_pos m _ hidle, ha, conclude_value]

/-- In IDLE a host operation takes its text's error by trap entry (R168). -/
theorem conclude_of_raised {α : Type} {m : String} {s : State} {a : Answer α} {k : α → Outcome}
    {e : ErrKind} {info : ErrInfo} (hidle : s.phase = .idle) (ha : a = .raised e info) :
    onlyIn .idle m s (conclude s a k) = .next (trapEntry e info s) := by
  rw [onlyIn_pos m _ hidle, ha, conclude_raised, raiseError_idle e info hidle]

/-- Settles O13: each of the operations tokenizes its text first. -/
theorem nonAsciiTextIsRefused : Obligations.NonAsciiTextIsRefused := by
  intro s text h
  refine ⟨?_, fun hphase => ⟨?_, ?_⟩, fun hidle => ⟨?_, ?_⟩⟩
  · simp only [exec, execTokenize, tokenize_nonAscii _ (mt (asciiText_iff text).1 h),
      onItsOwn_refused]
  · exact onItsOwn_of_refused hphase (tokenize_andThen_nonAscii _ _ h)
  · exact onItsOwn_of_refused hphase (tokenize_andThen_nonAscii _ _ h)
  · exact conclude_of_refused hidle (tokenize_andThen_nonAscii _ _ h)
  · exact conclude_of_refused hidle (tokenize_andThen_nonAscii _ _ h)

end Sys2Proof.Machine
end

section
/-!
PROOF. Hexadecimal tokens and texts (spec/40_hex_text_parser.md R82 to R85) and H_LOAD
(spec/45_sequencer_and_host.md R143): the digits of the model are those of the tables, a token
answers the byte it spells, and the first token that spells none is the one reported.
-/
namespace Sys2Proof.Machine

open Sys2Proof.Claims

/-! Digits. -/

/-- A character of a range of code points is in a table, if the table lists the whole range. -/
theorem mem_of_toNat_range {table : List (Char × Nat)} {value : Nat → Nat} {lo hi : Nat} {ch : Char}
    (hrange : ∀ n < hi + 1, lo ≤ n → (Char.ofNat n, value n) ∈ table) (hlo : lo ≤ ch.toNat)
    (hhi : ch.toNat ≤ hi) : (ch, value ch.toNat) ∈ table := by
  have h := hrange ch.toNat (by omega) hlo
  rwa [Char.ofNat_toNat] at h

/-- `decVal` is the table of decimal digits (R75). -/
theorem decVal_iff (ch : Char) (v : Nat) : decVal ch = some v ↔ (ch, v) ∈ decDigits := by
  constructor
  · intro h
    unfold decVal at h
    split at h <;> cases h
    rename_i hch
    exact mem_of_toNat_range (value := (· - 48)) (by decide) hch.1 hch.2
  · have h : ∀ p ∈ decDigits, decVal p.1 = some p.2 := by decide
    exact h (ch, v)

/-- `hexVal` is the table of hexadecimal digits (R75, R82). -/
theorem hexVal_iff (ch : Char) (v : Nat) : hexVal ch = some v ↔ (ch, v) ∈ hexDigits := by
  constructor
  · intro h
    unfold hexVal at h
    split at h
    · rename_i hch
      cases h
      exact mem_of_toNat_range (value := (· - 48)) (by decide) hch.1 hch.2
    split at h
    · rename_i hch
      cases h
      exact mem_of_toNat_range (value := (· - 87)) (by decide) hch.1 hch.2
    split at h <;> cases h
    rename_i hch
    exact mem_of_toNat_range (value := (· - 55)) (by decide) hch.1 hch.2
  · have h : ∀ p ∈ hexDigits, hexVal p.1 = some p.2 := by decide
    exact h (ch, v)

theorem hexDigits_lt {ch : Char} {v : Nat} (h : (ch, v) ∈ hexDigits) : v < 16 := by
  have hall : ∀ p ∈ hexDigits, p.2 < 16 := by decide
  exact hall _ h

/-! Hexadecimal tokens. -/

/-- A byte is the number it is made of, if that number is below 256. -/
theorem byte_eq_ofNat_iff {b : Byte} {n : Nat} (hn : n < 256) :
    BitVec.ofNat 8 n = b ↔ b.toNat = n := by
  rw [eq_comm, ← BitVec.toNat_inj, BitVec.toNat_ofNat, Nat.mod_eq_of_lt hn]

/-- `hexByte` is the spelling of one or two hexadecimal digits (R82). -/
theorem hexByte_iff (tok : Token) (b : Byte) : hexByte tok = some b ↔ HexTokenSpells tok b := by
  match tok with
  | [] => simp [hexByte, HexTokenSpells]
  | [d] =>
    simp only [hexByte, HexTokenSpells, Option.map_eq_some_iff, hexVal_iff]
    constructor
    · rintro ⟨v, hv, hb⟩
      have hlt := hexDigits_lt hv
      exact .inl ⟨d, v, hv, rfl, (byte_eq_ofNat_iff (by omega)).1 hb⟩
    · rintro (⟨_, v, hv, hd, hb⟩ | ⟨_, _, _, _, _, _, hd, _⟩) <;> cases hd
      have hlt := hexDigits_lt hv
      exact ⟨v, hv, (byte_eq_ofNat_iff (by omega)).2 hb⟩
  | [d1, d0] =>
    constructor
    · intro h
      rw [hexByte] at h
      split at h <;> cases h
      rename_i v1 v0 h1 h0
      rw [hexVal_iff] at h1 h0
      have hlt1 := hexDigits_lt h1
      have hlt0 := hexDigits_lt h0
      exact .inr ⟨d1, v1, d0, v0, h1, h0, rfl, (byte_eq_ofNat_iff (by omega)).1 rfl⟩
    · rintro (⟨_, _, _, hd, _⟩ | ⟨_, v1, _, v0, h1, h0, hd, hb⟩) <;> cases hd
      have hlt1 := hexDigits_lt h1
      have hlt0 := hexDigits_lt h0
      rw [hexByte, (hexVal_iff _ _).2 h1, (hexVal_iff _ _).2 h0]
      exact congrArg some ((byte_eq_ofNat_iff (by omega)).2 hb)
  | _ :: _ :: _ :: _ => simp [hexByte, HexTokenSpells]

theorem hextok_value {tok : Token} {b : Byte} (h : HexTokenSpells tok b) :
    hextok tok = .value b := by
  rw [hextok, (hexByte_iff tok b).2 h]

theorem hextok_invalid {tok : Token} (h : ∀ b, ¬ HexTokenSpells tok b) :
    hextok tok = .raised .parseError (.token tok) := by
  have hnone : hexByte tok = none :=
    Option.eq_none_iff_forall_ne_some.2 fun b hb => h b ((hexByte_iff tok b).1 hb)
  rw [hextok, hnone]

/-- Settles O11, by `hextok_value` and `hextok_invalid`. -/
theorem hexTokenToByte : Obligations.HexTokenToByte := fun _ _ =>
  ⟨fun _ h hphase => onItsOwn_of_value hphase (hextok_value h),
    fun h hphase => onItsOwn_of_raised hphase (hextok_invalid h)⟩

/-! Token sequences. -/

/-- Every token answered in order; the first answer that is no value is the answer (R85, R113). -/
def answerAll {α : Type} (f : Token → Answer α) : List Token → Answer (List α)
  | [] => .value []
  | tok :: toks => (f tok).andThen fun a => (answerAll f toks).andThen fun as => .value (a :: as)

theorem hextokAll_eq_answerAll (toks : List Token) : hextokAll toks = answerAll hextok toks := by
  induction toks with
  | nil => rfl
  | cons tok toks ih => rw [hextokAll, answerAll, ih]

theorem palSlots_eq_answerAll (toks : List Token) : palSlots toks = answerAll palSlot toks := by
  induction toks with
  | nil => rfl
  | cons tok toks ih => rw [palSlots, answerAll, ih]

theorem answerAll_value {α β : Type} {f : Token → Answer α} {g : β → α} {R : Token → β → Prop}
    (hf : ∀ tok b, R tok b → f tok = .value (g b)) {toks : List Token} {bs : List β}
    (h : List.Forall₂ R toks bs) : answerAll f toks = .value (bs.map g) := by
  induction h with
  | nil => rfl
  | cons hhead _ ih => rw [answerAll, hf _ _ hhead, ih]; rfl

/-- Behind tokens with values the first error is the one reported. -/
theorem answerAll_raised {α β : Type} {f : Token → Answer α} {g : β → α} {R : Token → β → Prop}
    (hf : ∀ tok b, R tok b → f tok = .value (g b)) {good : List Token} {bs : List β}
    (h : List.Forall₂ R good bs) {bad : Token} {e : ErrKind} {info : ErrInfo}
    (hbad : f bad = .raised e info) (rest : List Token) :
    answerAll f (good ++ bad :: rest) = .raised e info := by
  induction h with
  | nil => rw [List.nil_append, answerAll, hbad]; rfl
  | cons hhead _ ih => rw [List.cons_append, answerAll, hf _ _ hhead, ih]; rfl

/-- HEXPARSE of a text whose tokens all spell bytes (R83). -/
theorem hexparse_value {ws : List Char} {text : Text} {toks : List Token} {bs : List Byte}
    (hascii : Ascii text) (h : TokensOf ws text toks) (hbs : List.Forall₂ HexTokenSpells toks bs) :
    hexparse ws text = .value bs := by
  rw [hexparse, tokenize_andThen _ hascii h, hextokAll_eq_answerAll,
    answerAll_value (f := hextok) (g := id) (fun _ _ => hextok_value) hbs, List.map_id]

/-- HEXPARSE of a text with an invalid token behind valid ones (R85). -/
theorem hexparse_invalid {ws : List Char} {text : Text} {good rest : List Token} {bad : Token}
    {bs : List Byte} (hascii : Ascii text) (h : TokensOf ws text (good ++ bad :: rest))
    (hgood : List.Forall₂ HexTokenSpells good bs) (hbad : ∀ b, ¬ HexTokenSpells bad b) :
    hexparse ws text = .raised .parseError (.token bad) := by
  rw [hexparse, tokenize_andThen _ hascii h, hextokAll_eq_answerAll,
    answerAll_raised (f := hextok) (g := id) (fun _ _ => hextok_value) hgood (hextok_invalid hbad)]

/-- Settles O12, by `hexparse_value` and `hexparse_invalid`. -/
theorem hexTextToBytes : Obligations.HexTextToBytes := by
  refine fun s text toks hascii h => ⟨fun bs hbs hphase => ?_, ?_⟩
  · exact onItsOwn_of_value hphase (hexparse_value hascii h hbs)
  · rintro good bs bad rest rfl hgood hbad hphase
    exact onItsOwn_of_raised hphase (hexparse_invalid hascii h hgood hbad)

/-- In IDLE H_LOAD of a text that answers bytes is the load of those bytes (R143). -/
theorem exec_hLoad_value {s : State} {text : Text} {bs : List Byte} (hidle : s.phase = .idle)
    (h : hexparse s.cfg.ws text = .value bs) : exec (.hLoad text) s = exec (.hLoadb bs) s :=
  (conclude_of_value hidle h).trans (exec_hLoadb_idle bs hidle).symm

/-- In IDLE H_LOAD of a text that raises takes ParseError (R143, R168). -/
theorem exec_hLoad_raised {s : State} {text : Text} {e : ErrKind} {info : ErrInfo}
    (hidle : s.phase = .idle) (h : hexparse s.cfg.ws text = .raised e info) :
    exec (.hLoad text) s =
      .next { s with err := 1#3, errinfo := info, phase := .error, out := .nothing } := by
  obtain ⟨rfl, -⟩ := hexparse_raised h
  exact conclude_of_raised hidle h

/-- Settles O36: H_LOAD is H_LOADB of HEXPARSE's bytes, or trap entry with its error. -/
theorem loadTextLoadsItsBytes : Obligations.LoadTextLoadsItsBytes := by
  refine fun s text => ⟨fun hidle => ⟨fun bs => exec_hLoad_value hidle,
    fun e info => exec_hLoad_raised hidle, fun toks hascii h => ⟨fun bs hbs hfits => ?_, ?_⟩⟩,
    onlyIn_neg _ _⟩
  · rw [exec_hLoad_value hidle (hexparse_value hascii h hbs)]
    exact (loadBytesFillsPatternMemory s bs).1 hidle hfits
  · rintro good bs bad rest rfl hgood hbad
    exact exec_hLoad_raised hidle (hexparse_invalid hascii h hgood hbad)

end Sys2Proof.Machine
end

section
/-!
PROOF. The palette text (spec/43_palette_mapper.md R111 to R114) and H_SETPAL
(spec/45_sequencer_and_host.md R141).
-/
namespace Sys2Proof.Machine

open Sys2Proof.Claims

/-! Palette tokens. -/

/-- A digit string is worth what it spells in the table of its digits. -/
theorem digits_iff_spells {digit : Char → Option Nat} {table : List (Char × Nat)}
    (h : ∀ ch v, digit ch = some v ↔ (ch, v) ∈ table) (base : Nat) (str : List Char) (v : Nat) :
    digits digit base str = some v ↔ Spells table base str v := by
  rw [digits_iff, Spells]
  simp only [h]

theorem digits_dec_iff (str : List Char) (v : Nat) :
    digits decVal 10 str = some v ↔ Spells decDigits 10 str v :=
  digits_iff_spells decVal_iff 10 str v

theorem digits_hex_iff (str : List Char) (v : Nat) :
    digits hexVal 16 str = some v ↔ Spells hexDigits 16 str v :=
  digits_iff_spells hexVal_iff 16 str v

theorem char_eq_iff_toNat {c d : Char} : c.toNat = d.toNat ↔ c = d :=
  ⟨fun h => by rw [← Char.ofNat_toNat c, h, Char.ofNat_toNat], congrArg _⟩

/-- `0x` or `0X` in front is no spelling by decimal digits (R111). -/
theorem not_spells_dec_of_0x {x : Char} (hx : x = 'x' ∨ x = 'X') (rest : List Char) (v : Nat) :
    ¬ Spells decDigits 10 ('0' :: x :: rest) v := by
  have hdigit : ∀ p ∈ decDigits, p.1 ≠ 'x' ∧ p.1 ≠ 'X' := by decide
  rintro ⟨-, ds, hds, -⟩
  cases hds with
  | cons _ hds =>
    cases hds with
    | cons hx' _ => exact hx.elim (hdigit _ hx').1 (hdigit _ hx').2

/-- `palNumber` is the spelling of a palette token (R111). -/
theorem palNumber_iff (tok : Token) (v : Nat) : palNumber tok = some v ↔ PalTokenSpells tok v := by
  have hmark : ∀ c0 c1 : Char, (c0.toNat = 48 ∧ (c1.toNat = 120 ∨ c1.toNat = 88)) ↔
      c0 = '0' ∧ (c1 = 'x' ∨ c1 = 'X') := by
    intro c0 c1
    rw [← char_eq_iff_toNat (d := '0'), ← char_eq_iff_toNat (d := 'x'),
      ← char_eq_iff_toNat (d := 'X')]
    rfl
  unfold palNumber PalTokenSpells
  constructor
  · intro h
    split at h
    · rename_i hdec
      cases h
      exact .inl ((digits_dec_iff tok v).1 hdec)
    split at h
    · rename_i c0 c1 rest _
      split at h
      · rename_i hc
        obtain ⟨rfl, hx⟩ := (hmark c0 c1).1 hc
        exact .inr ⟨c1, rest, hx, rfl, (digits_hex_iff rest v).1 h⟩
      · cases h
    · cases h
  · rintro (hdec | ⟨x, rest, hx, rfl, hhex⟩)
    · rw [(digits_dec_iff tok v).2 hdec]
    · have hnone : digits decVal 10 ('0' :: x :: rest) = none :=
        Option.eq_none_iff_forall_ne_some.2 fun v hv =>
          not_spells_dec_of_0x hx rest v ((digits_dec_iff _ v).1 hv)
      rw [hnone]
      exact (if_pos ((hmark '0' x).2 ⟨rfl, hx⟩)).trans ((digits_hex_iff rest v).2 hhex)

theorem paltok_value {tok : Token} {v : Nat} (h : PalTokenSpells tok v) :
    paltok tok = .value v := by
  rw [paltok, (palNumber_iff tok v).2 h]

theorem paltok_invalid {tok : Token} (h : ∀ v, ¬ PalTokenSpells tok v) :
    paltok tok = .raised .invalidPaletteSlot (.token tok) := by
  have hnone : palNumber tok = none :=
    Option.eq_none_iff_forall_ne_some.2 fun v hv => h v ((palNumber_iff tok v).1 hv)
  rw [paltok, hnone]

/-- Settles O23, by `paltok_value` and `paltok_invalid`. -/
theorem paletteTokenToNumber : Obligations.PaletteTokenToNumber := fun _ _ =>
  ⟨fun _ h hphase => onItsOwn_of_value hphase (paltok_value h),
    fun h hphase => onItsOwn_of_raised hphase (paltok_invalid h)⟩

/-! Palette texts. -/

theorem palSlot_value (tok : Token) (v : Nat) (h : PalTokenFits tok v) :
    palSlot tok = .value (BitVec.ofNat 6 v) := by
  rw [palSlot, paltok_value h.1]
  exact if_pos h.2

/-- A token that is unparsable, or whose value no register can hold, is the one reported (R112). -/
theorem palSlot_invalid {tok : Token} (h : ∀ v, ¬ PalTokenFits tok v) :
    palSlot tok = .raised .invalidPaletteSlot (.token tok) := by
  by_cases hspells : ∃ v, PalTokenSpells tok v
  · obtain ⟨v, hv⟩ := hspells
    rw [palSlot, paltok_value hv]
    exact if_neg fun hlt => h v ⟨hv, hlt⟩
  · rw [palSlot, paltok_invalid fun v hv => hspells ⟨v, hv⟩]
    rfl

theorem palSlots_value {toks : List Token} {vs : List Nat} (h : List.Forall₂ PalTokenFits toks vs) :
    palSlots toks = .value (vs.map (BitVec.ofNat 6)) := by
  rw [palSlots_eq_answerAll, answerAll_value palSlot_value h]

theorem palSlots_invalid {good : List Token} {vs : List Nat} {bad : Token}
    (hgood : List.Forall₂ PalTokenFits good vs) (hbad : ∀ v, ¬ PalTokenFits bad v)
    (rest : List Token) :
    palSlots (good ++ bad :: rest) = .raised .invalidPaletteSlot (.token bad) := by
  rw [palSlots_eq_answerAll, answerAll_raised palSlot_value hgood (palSlot_invalid hbad)]

/-- The values of fitting tokens are below 64 (R112). -/
theorem values_lt_of_fit {toks : List Token} {vs : List Nat}
    (h : List.Forall₂ PalTokenFits toks vs) : ∀ v ∈ vs, v < 64 := by
  induction h with
  | nil => nofun
  | cons hhead _ ih => exact List.forall_mem_cons.2 ⟨hhead.2, ih⟩

theorem palFill_getElem (vs : List PalValue) {k : Nat} (h : k < 4) :
    (palFill vs)[k] = vs.getD k 0#6 := by
  interval_cases k <;> rfl

/-- The palette that fitting values fill holds them, and 0 behind them (R113). -/
theorem palFill_map_toNat {toks : List Token} {vs : List Nat}
    (h : List.Forall₂ PalTokenFits toks vs) {k : Nat} (hk : k < 4) :
    (palFill (vs.map (BitVec.ofNat 6)))[k].toNat = vs.getD k 0 := by
  rw [palFill_getElem _ hk, List.getD_eq_getElem?_getD, List.getD_eq_getElem?_getD,
    List.getElem?_map]
  cases hv : vs[k]? with
  | none => rfl
  | some v => simpa using values_lt_of_fit h v (List.mem_of_getElem? hv)

/-- PALPARSE of an ASCII text is the palette of its tokens (R113). -/
theorem palparse_eq {cfg : Config.Params} {text : Text} {toks : List Token}
    (hascii : Ascii text) (h : TokensOf cfg.ws text toks) :
    palparse cfg text = palOfTokens cfg.palExtra toks :=
  tokenize_andThen _ hascii h

theorem palOfTokens_short (policy : Config.PalExtraPolicy) {toks : List Token}
    (h : toks.length ≤ 4) :
    palOfTokens policy toks = (palSlots toks).andThen fun vs => .value (palFill vs) :=
  if_pos h

/-- Four tokens or less whose values all fit are a palette (R113). -/
theorem palOfTokens_value (policy : Config.PalExtraPolicy) {toks : List Token} {vs : List Nat}
    (hlen : toks.length ≤ 4) (h : List.Forall₂ PalTokenFits toks vs) :
    palOfTokens policy toks = .value (palFill (vs.map (BitVec.ofNat 6))) := by
  rw [palOfTokens_short policy hlen, palSlots_value h]
  rfl

/-- The first of four tokens or less that does not fit is the one reported (R113). -/
theorem palOfTokens_invalid (policy : Config.PalExtraPolicy) {good rest : List Token} {bad : Token}
    {vs : List Nat} (hlen : (good ++ bad :: rest).length ≤ 4)
    (hgood : List.Forall₂ PalTokenFits good vs) (hbad : ∀ v, ¬ PalTokenFits bad v) :
    palOfTokens policy (good ++ bad :: rest) = .raised .invalidPaletteSlot (.token bad) := by
  rw [palOfTokens_short policy hlen, palSlots_invalid hgood hbad]
  rfl

/-- Settles O24, by `palOfTokens_value` and `palOfTokens_invalid`. -/
theorem paletteTextToValues : Obligations.PaletteTextToValues := by
  refine fun s text toks hascii h hlen => ⟨fun vs hvs hphase => ?_, ?_⟩
  · exact ⟨_, onItsOwn_of_value hphase
      ((palparse_eq hascii h).trans (palOfTokens_value _ hlen hvs)),
      fun k hk => palFill_map_toNat hvs hk⟩
  · rintro good vs bad rest rfl hgood hbad hphase
    exact onItsOwn_of_raised hphase
      ((palparse_eq hascii h).trans (palOfTokens_invalid _ hlen hgood hbad))

/-! More than four tokens. -/

/-- What each policy makes of a fifth token (R114). -/
theorem palOfTokens_long {toks : List Token} {fifth : Token} (h : toks[4]? = some fifth) :
    palOfTokens .refuse toks = .refused (.tooManyPaletteTokens toks.length) ∧
    palOfTokens .error toks = (palSlots (toks.take 4)).andThen (fun _ =>
      .raised .invalidPaletteSlot (.token fifth)) ∧
    palOfTokens .ignore toks = (palSlots (toks.take 4)).andThen fun vs => .value (palFill vs) := by
  have hlong : ¬ toks.length ≤ Config.PAL_SLOTS := by
    obtain ⟨hlt, -⟩ := List.getElem?_eq_some_iff.1 h
    exact Nat.not_le.2 hlt
  have hfifth : toks.getD Config.PAL_SLOTS [] = fifth := by
    rw [List.getD_eq_getElem?_getD, Config.PAL_SLOTS, h]
    rfl
  refine ⟨if_neg hlong, (if_neg hlong).trans ?_, if_neg hlong⟩
  rw [hfifth]
  rfl

/-- Settles O25, policy by policy. -/
theorem extraPaletteTokens : Obligations.ExtraPaletteTokens := by
  intro s text toks fifth hascii h hfifth
  obtain ⟨hrefuse, herror, hignore⟩ := palOfTokens_long hfifth
  have hparse := palparse_eq hascii h
  refine ⟨fun hpol hphase => ?_, fun hpol hphase vs hvs => ?_, fun hpol hphase vs hvs => ?_,
    fun hpol hphase good vs bad rest htake hgood hbad => ?_⟩
  · rw [hpol] at hparse
    exact onItsOwn_of_refused hphase (hparse.trans hrefuse)
  · rw [hpol, hignore, palSlots_value hvs] at hparse
    refine ⟨_, onItsOwn_of_value hphase hparse, fun k hk => ?_⟩
    have hlen : k < vs.length := by
      obtain ⟨hlt, -⟩ := List.getElem?_eq_some_iff.1 hfifth
      rw [← hvs.length_eq, List.length_take]
      omega
    rw [palFill_map_toNat hvs hk, List.getD_eq_getElem _ _ hlen, List.getElem?_eq_getElem hlen]
  · rw [hpol, herror, palSlots_value hvs] at hparse
    exact onItsOwn_of_raised hphase hparse
  · refine onItsOwn_of_raised hphase (hparse.trans ?_)
    cases hp : s.cfg.palExtra with
    | refuse => exact absurd hp hpol
    | error => rw [herror, htake, palSlots_invalid hgood hbad]; rfl
    | ignore => rw [hignore, htake, palSlots_invalid hgood hbad]; rfl

/-! H_SETPAL. -/

/-- In IDLE H_SETPAL writes the four values of PALPARSE at once (R141). -/
theorem exec_hSetpal_value {s : State} {text : Text} {p : Vector PalValue 4}
    (hidle : s.phase = .idle) (h : palparse s.cfg text = .value p) :
    exec (.hSetpal text) s = .next { s with pal := p, out := .nothing } :=
  conclude_of_value hidle h

/-- In IDLE H_SETPAL of a text that raises takes InvalidPaletteSlot (R141, R168). -/
theorem exec_hSetpal_raised {s : State} {text : Text} {e : ErrKind} {info : ErrInfo}
    (hidle : s.phase = .idle) (h : palparse s.cfg text = .raised e info) :
    exec (.hSetpal text) s =
      .next { s with err := 2#3, errinfo := info, phase := .error, out := .nothing } := by
  obtain ⟨rfl, -⟩ := palparse_raised h
  exact conclude_of_raised hidle h

/-- Settles O34: H_SETPAL takes up PALPARSE's answer, which the tokens decide. -/
theorem setPaletteWritesRegisters : Obligations.SetPaletteWritesRegisters := by
  refine fun s text => ⟨fun hidle => ⟨fun p => exec_hSetpal_value hidle,
    fun e info => exec_hSetpal_raised hidle, fun r => conclude_of_refused hidle,
    fun toks hascii h hlen => ⟨fun vs hvs => ?_, ?_⟩⟩, onlyIn_neg _ _⟩
  · exact ⟨_, exec_hSetpal_value hidle
      ((palparse_eq hascii h).trans (palOfTokens_value _ hlen hvs)),
      fun k hk => palFill_map_toNat hvs hk⟩
  · rintro good vs bad rest rfl hgood hbad
    exact exec_hSetpal_raised hidle
      ((palparse_eq hascii h).trans (palOfTokens_invalid _ hlen hgood hbad))

end Sys2Proof.Machine
end

section
/-!
PROOF. The host operations and the run (spec/45_sequencer_and_host.md): H_RESET, H_START, H_STATUS,
H_READ, what a run depends on, that it ends, and that HOST's four operations compute PIPELINE.
-/
namespace Sys2Proof.Machine

open Sys2Proof.Safety Sys2Proof.Claims

/-! H_RESET, H_STATUS, H_READ. -/

/-- No legal transition leaves DONE or ERROR (R23). -/
theorem eq_of_legalTransition_ended {p q : Phase} (hp : p = .done ∨ p = .error)
    (h : legalTransition p q = true) : q = p := by
  obtain rfl | rfl := hp <;> cases q <;> simp [legalTransition] at h ⊢

/-- DONE and ERROR are left by H_RESET alone (R23, R140). -/
theorem eq_hReset_of_leaves {i : Instr} {s t : State} (hended : Ended s) (h : exec i s = .next t)
    (hne : t.phase ≠ s.phase) : i = .hReset := by
  obtain ⟨hi, -⟩ | ⟨-, hlegal, -⟩ := phaseChangesAreLegal i s t h
  · exact hi
  · exact absurd (eq_of_legalTransition_ended hended hlegal) hne

/-- Settles O33: the reset block field by field, the guard, and the legal transitions. -/
theorem resetOperation : Obligations.ResetOperation := by
  refine ⟨fun s hrun => ⟨s.resetBlock, notIn_neg _ _ hrun, rfl, rfl, fun a => if_neg a.not_lt_zero,
    rfl, rfl, rfl, rfl, rfl, entry_nil, rfl, rfl⟩, fun s hrun => ?_,
    fun i s t => eq_hReset_of_leaves⟩
  rw [← hrun]
  exact notIn_pos _ _ hrun

/-- Settles O38, field by field of `State.status`. -/
theorem statusReportsRegisters : Obligations.StatusReportsRegisters := fun s =>
  ⟨s.status, rfl, rfl, rfl, rfl, fun h => if_neg h, fun h => ⟨if_neg h, if_neg h⟩,
    fun h => if_pos h, fun h => ⟨if_pos h, if_pos h⟩⟩

/-- In DONE H_READ hands the raster over (R150). -/
theorem exec_hRead {s : State} (h : s.phase = .done) :
    exec .hRead s =
      .next { s with out := .raster (s.rast.view s.draws), draws := s.draws + 1 } :=
  onlyIn_pos _ _ h

/-- Entry `y * 128 + x` of the raster handed over: what is written at `(x, y)`, or a free value
(R131, R150; log 8). -/
theorem view_getElem? (r : Raster) (d : Nat) {x y : Nat} (hx : x < 128) (hy : y < 128) :
    (r.view d)[y * 128 + x]? =
      some ((r.written ⟨x, y⟩).getD (Config.freePixel d (y * 128 + x))) := by
  rw [List.getElem?_eq_getElem (by rw [Raster.view_length]; omega), Raster.view_getElem]
  rfl

/-- Settles O39, entry by entry (`view_getElem?`). -/
theorem readHandsOverRaster : Obligations.ReadHandsOverRaster := by
  refine fun s => ⟨fun h => ⟨s.rast.view s.draws, exec_hRead h, Raster.view_length _ _,
    fun x y hx hy => ⟨fun v hv => ?_, fun hnone => ?_⟩⟩, onlyIn_neg _ _⟩
  · rw [view_getElem? _ _ hx hy, hv]
    rfl
  · rw [view_getElem? _ _ hx hy, hnone]
    rfl

/-! H_START. -/

/-- In IDLE H_START writes LENW and makes the checks (R144). -/
theorem exec_hStart_idle {s : State} (h : s.phase = .idle) :
    exec .hStart s = startRun (s.setLenw (lenwOf s.len)) :=
  onlyIn_pos _ _ h

theorem startRun_ragged {s : State} (hidle : s.phase = .idle) (h16 : s.len % 16 ≠ 0) :
    startRun s = .next (trapEntry .malformedTile (.num (s.len % 16)) s) :=
  (if_pos h16).trans (raiseError_idle _ _ hidle)

theorem startRun_strict {s : State} (hidle : s.phase = .idle) (h16 : s.len % 16 = 0)
    (hstrict : s.cfg.strictLen = true ∧ s.len ≠ 4096) :
    startRun s = .next (trapEntry .formatViolation (.num s.len) s) :=
  (if_neg (not_not.2 h16)).trans ((if_pos hstrict).trans (raiseError_idle _ _ hidle))

theorem startRun_overflow {s : State} (hidle : s.phase = .idle) (h16 : s.len % 16 = 0)
    (hstrict : ¬ (s.cfg.strictLen = true ∧ s.len ≠ 4096)) (hover : 16 * 16 < s.len / 16) :
    startRun s = .next (trapEntry .rasterOverflow (.num (s.len / 16)) s) :=
  (if_neg (not_not.2 h16)).trans
    ((if_neg hstrict).trans ((if_pos hover).trans (raiseError_idle _ _ hidle)))

theorem startRun_starts {s : State} (h16 : s.len % 16 = 0)
    (hstrict : ¬ (s.cfg.strictLen = true ∧ s.len ≠ 4096)) (hfits : ¬ 16 * 16 < s.len / 16) :
    startRun s = .next { s with k := 0, phase := .run, out := .nothing } :=
  (if_neg (not_not.2 h16)).trans ((if_neg hstrict).trans (if_neg hfits))

/-- Settles O37: the checks in their order, each on the state with LENW written. -/
theorem startChecksAndStarts : Obligations.StartChecksAndStarts := by
  refine fun s => ⟨fun hidle h16 => ?_, fun hidle h16 hstrict hlen => ?_,
    fun hidle h16 hstrict hover => ?_, fun hidle h16 hstrict hfits => ?_, onlyIn_neg _ _⟩ <;>
    rw [exec_hStart_idle hidle]
  · exact startRun_ragged hidle h16
  · exact startRun_strict hidle h16 ⟨hstrict, hlen⟩
  · exact startRun_overflow hidle h16 (fun h => by simp [hstrict] at h) hover
  · exact startRun_starts h16 (fun h => h.2 (hstrict h.1)) (Nat.not_lt.2 hfits)

/-! The run. -/

/-- Where RUN answers a next state, it is the one of `exec_run_eq` (R146). -/
theorem exec_run_next {s t : State} (h : exec .run s = .next t) :
    s.len % 16 = 0 ∧ s.len / 16 ≤ 256 ∧ t = { s with
      rast := composeFrom 16 0 (s.palmapseq (decodeTiles s.block)) s.rast
      k := 64 * (s.len / 16), phase := .done, out := .nothing } := by
  cases exec_transition h with
  | value hands => cases hands
  | trap takes => cases takes
  | run _ h16 hfits => exact ⟨h16, hfits, rfl⟩

/-- Settles O47: the composed raster is made of PT, LEN, PAL, MPAL and RAST alone. -/
theorem runDependsOnInputsOnly : Obligations.RunDependsOnInputsOnly := by
  intro s s' t _ hrun' hpt hlen hpal hmpal hrast h
  obtain ⟨h16, hfits, rfl⟩ := exec_run_next h
  have hblock : s'.block = s.block := by simp only [State.block, hpt, hlen]
  have hpalmap : s'.palmap = s.palmap := by
    funext n
    simp only [State.palmap, State.mpalRead, State.palRead, hpal, hmpal]
  have hcolours : s'.palmapseq (decodeTiles s'.block) = s.palmapseq (decodeTiles s.block) := by
    simp only [State.palmapseq, hblock, hpalmap]
  rw [hlen] at h16 hfits
  exact ⟨_, exec_run_eq hrun' h16 hfits, by rw [hcolours, hrast], by rw [hlen], rfl⟩

/-- Settles O48: every register of the palette selects MPAL[0]. -/
theorem defaultPaletteRunIsOneColour : Obligations.DefaultPaletteRunIsOneColour := by
  intro s t _ hpal h i hi
  have hzero : ∀ n : PixelIdx,
      (#v[0#6, 0#6, 0#6, 0#6] : Vector PalValue 4)[n.toNat]'(n.isLt) = 0#6 := by decide
  have hread : ∀ n : PixelIdx, s.palRead n = 0#6 := by
    simpa only [State.palRead, hpal] using hzero
  rw [exec_run_written h hi, colourAt, hread]
  exact (Vector.getElem?_eq_getElem _).symm

/-- The tile number of a coordinate is that of its flat position (R128). -/
theorem tile_of_coordAt {i x y : Nat} (h : coordAt i = ⟨x, y⟩) : y / 8 * 16 + x / 8 = i / 64 := by
  have hinv := coordOf_inverse i
  rw [coordOf_sixteen, h] at hinv
  simp only at hinv
  omega

/-- Settles O46: no position of the run is placed in a tile from NT on, so that H_READ finds nothing
written there. -/
theorem shortRunLeavesRestOpen : Obligations.ShortRunLeavesRestOpen := by
  intro s t hstart hempty h
  obtain ⟨r, hrun, -, hother⟩ := runWritesEveryPixel s hstart
  cases Host.Outcome.next.inj (hrun.symm.trans h)
  refine ⟨_, exec_hRead rfl, fun x y hx hy htile => ?_⟩
  have hnone : r.written ⟨x, y⟩ = none := by
    rw [hother ⟨x, y⟩ ⟨hx, hy⟩ fun i hi hcoord => ?_, hempty]
    · rfl
    · have := tile_of_coordAt hcoord
      omega
  rw [view_getElem? _ _ hx hy, hnone]
  rfl

/-- With nothing queued in RUN, a step of the machine is STEP (R147, R189; log 1). -/
theorem step_of_run {s : State} (hqueue : s.queue = []) (hrun : s.phase = .run) :
    step s = exec .step s :=
  (emptyQueueStep s hqueue).1 hrun

theorem machineSteps_succ {s t : State} (h : step s = .next t) (n : Nat) :
    machineSteps (n + 1) s = machineSteps n t := by
  rw [machineSteps, h]

/-- One step more after `n` steps. -/
theorem machineSteps_snoc {n : Nat} {s u : State} (h : machineSteps n s = .next u) :
    machineSteps (n + 1) s = step u := by
  induction n generalizing s with
  | zero =>
    cases h
    rw [machineSteps]
    cases step u <;> rfl
  | succ n ih =>
    rw [machineSteps] at h
    split at h
    · rename_i t hstep
      rw [machineSteps_succ hstep, ih h]
    · rename_i hno
      exact absurd h (hno u)

/-- With nothing queued, `n` steps in RUN place `n` pixels, up to `64 * NT` (R147). -/
theorem machineSteps_run (n : Nat) {s : State} (hqueue : s.queue = []) (hrun : s.phase = .run)
    (hfits : s.len / 16 ≤ 256) (hn : s.k + n ≤ 64 * (s.len / 16)) :
    ∃ u : State, machineSteps n s = .next u ∧ u.phase = .run ∧ u.k = s.k + n ∧
      u.len = s.len ∧ u.queue = [] := by
  induction n generalizing s with
  | zero => exact ⟨s, rfl, hrun, rfl, rfl, hqueue⟩
  | succ n ih =>
    have hstep := (step_of_run hqueue hrun).trans (exec_step_pixel hrun (by omega) hfits)
    have hrest : s.k + 1 + n ≤ 64 * (s.len / 16) := by omega
    rw [machineSteps_succ hstep, ← Nat.add_assoc, Nat.add_right_comm]
    exact ih hqueue hrun hfits hrest

/-- An accepted H_START leaves the state a run begins in (R144). -/
theorem atStart_of_hStart {s t : State} (h : exec .hStart s = .next t) (hrun : t.phase = .run) :
    AtStart t := by
  cases exec_transition h with
  | value hands => cases hands
  | trap => cases hrun
  | start _ h16 _ hfits => exact ⟨rfl, rfl, h16, hfits⟩

/-- Settles O43: `64 * NT` steps place the pixels (`machineSteps_run`), and one more completes. -/
theorem startedRunTerminates : Obligations.StartedRunTerminates := by
  intro s t h hrun hqueue
  obtain ⟨-, hk, -, hfits⟩ := atStart_of_hStart h hrun
  have hsteps := fun n hn =>
    machineSteps_run n hqueue hrun hfits (by rw [hk, Nat.zero_add]; exact hn)
  refine ⟨fun n hn => ?_, ?_⟩
  · obtain ⟨u, hu, hphase, huk, -⟩ := hsteps n hn
    exact ⟨u, hu, hphase, by rw [huk, hk, Nat.zero_add]⟩
  · obtain ⟨u, hu, hphase, huk, hulen, huqueue⟩ := hsteps _ le_rfl
    rw [hk, Nat.zero_add, ← hulen] at huk
    exact ⟨_, (machineSteps_snoc hu).trans
      ((step_of_run huqueue hphase).trans (exec_step_finish hphase huk)), rfl⟩

end Sys2Proof.Machine
end

section
/-!
PROOF. HOST's four operations compute PIPELINE (spec/45_sequencer_and_host.md R154), stage by stage
from the last: the run of the loaded bytes, the load, the palette.
-/
namespace Sys2Proof.Machine

open Sys2Proof.Claims

/-! Operations issued in order. -/

theorem issueAll_goes_on {i : Instr} {s t : State} (rest : List Instr) (h : exec i s = .next t)
    (ht : t.phase ≠ .error) : issueAll (i :: rest) s = issueAll rest t := by
  rw [issueAll, h]
  exact if_neg ht

theorem issueAll_stops {i : Instr} {s t : State} (rest : List Instr) (h : exec i s = .next t)
    (ht : t.phase = .error) : issueAll (i :: rest) s = .next t := by
  rw [issueAll, h]
  exact if_pos ht

theorem issueAll_refused {i : Instr} {s : State} {r : Refusal} (rest : List Instr)
    (h : exec i s = .refused r) : issueAll (i :: rest) s = .refused r := by
  rw [issueAll, h]

/-! What PIPELINE says of an outcome. -/

/-- The outcome, from a state, is what PIPELINE answers: its entries and warning in DONE, its error
in ERROR, or its refusal (R154). -/
def Computes (s : State) (o : Outcome) : Answer (List (Coord × RGB) × Bool) → Prop
  | .value (entries, warning) => ∃ u : State, o = .next u ∧
      u.phase = .done ∧ u.err = s.err ∧ u.lenw = warning ∧
      (∀ e ∈ entries, u.rast.written e.1 = some e.2) ∧
      ∀ xy : Coord, xy.InRaster → (∀ e ∈ entries, e.1 ≠ xy) → u.rast.written xy = s.rast.written xy
  | .raised e info => ∃ u : State, o = .next u ∧
      u.phase = .error ∧ u.err = e.code ∧ u.errinfo = info
  | .refused r => o = .refused r

/-- Trap entry is what PIPELINE says of an error. -/
theorem computes_trapEntry {i : Instr} {s t t' : State} (rest : List Instr) {e : ErrKind}
    {info : ErrInfo} (h : exec i t = .next (trapEntry e info t')) :
    Computes s (issueAll (i :: rest) t) (.raised e info) :=
  ⟨_, issueAll_stops rest h rfl, rfl, rfl, rfl⟩

/-! The run of the loaded bytes. -/

/-- The entries of PIPELINE: the colour of every index at its coordinate. -/
def pipelineEntries (s : State) (idx : List PixelIdx) : List (Coord × RGB) :=
  idx.zipIdx.map fun p => (coordAt p.2, s.palmap p.1)

/-- PIPELINE from the loaded bytes on: the checks of H_START, then the entries and the warning. -/
def pipelineOfBlock (s : State) (bytes : List Byte) : Answer (List (Coord × RGB) × Bool) :=
  if bytes.length % 16 ≠ 0 then .raised .malformedTile (.num (bytes.length % 16))
  else if s.cfg.strictLen = true ∧ bytes.length ≠ 4096 then
    .raised .formatViolation (.num bytes.length)
  else if 16 * 16 < bytes.length / 16 then .raised .rasterOverflow (.num (bytes.length / 16))
  else (ptdec bytes).andThen fun idx =>
    .value (pipelineEntries s idx, decide (bytes.length ≠ 4096))

theorem mem_pipelineEntries {s : State} {idx : List PixelIdx} {e : Coord × RGB} :
    e ∈ pipelineEntries s idx ↔ ∃ i n, idx[i]? = some n ∧ e = (coordAt i, s.palmap n) := by
  simp only [pipelineEntries, List.mem_map, Prod.exists, List.mem_zipIdx_iff_getElem?,
    eq_comm (a := e)]
  exact exists_comm

/-- The entries of the byte block are the colours of its flat positions (R108, R146). -/
theorem mem_entries_block {s : State} {e : Coord × RGB} :
    e ∈ pipelineEntries s (decodeTiles s.block) ↔
      ∃ i, i < 64 * (s.len / 16) ∧ e = (coordAt i, colourAt s i) := by
  rw [mem_pipelineEntries]
  constructor
  · rintro ⟨i, n, hn, rfl⟩
    obtain ⟨hi, -⟩ := List.getElem?_eq_some_iff.1 hn
    rw [decodeTiles_length, State.block_length] at hi
    cases (decodeTiles_block_getElem? s hi).symm.trans hn
    exact ⟨i, hi, rfl⟩
  · rintro ⟨i, hi, rfl⟩
    exact ⟨i, _, decodeTiles_block_getElem? s hi, rfl⟩

/-- RUN from an accepted start writes the entries of PIPELINE and nothing else (R146, R154). -/
theorem run_computes {s t : State} (hstart : AtStart t) (hrast : t.rast = s.rast)
    (herr : t.err = s.err) :
    Computes s (issueAll [.run] t) (.value (pipelineEntries t (decodeTiles t.block), t.lenw)) := by
  obtain ⟨r, hrun, hplaced, hother⟩ := runWritesEveryPixel t hstart
  refine ⟨_, issueAll_goes_on [] hrun nofun, rfl, herr, rfl, fun e he => ?_, fun xy hxy hoff => ?_⟩
  · obtain ⟨i, hi, rfl⟩ := mem_entries_block.1 he
    exact hplaced i hi
  · rw [← hrast]
    exact hother xy hxy fun i hi => hoff _ (mem_entries_block.2 ⟨i, hi, rfl⟩)

/-- H_START and RUN compute PIPELINE of the loaded bytes: the checks are the same, in the same order
(R144, R145). -/
theorem start_run_computes {s t : State} (hidle : t.phase = .idle) (hrast : t.rast = s.rast)
    (herr : t.err = s.err) :
    Computes s (issueAll [.hStart, .run] t) (pipelineOfBlock t t.block) := by
  have hexec := exec_hStart_idle hidle
  unfold pipelineOfBlock
  rw [State.block_length]
  split
  · rename_i h16
    exact computes_trapEntry _ (hexec.trans (startRun_ragged hidle h16))
  rename_i h16
  rw [not_not] at h16
  split
  · rename_i hstrict
    exact computes_trapEntry _ (hexec.trans (startRun_strict hidle h16 hstrict))
  rename_i hstrict
  split
  · rename_i hover
    exact computes_trapEntry _ (hexec.trans (startRun_overflow hidle h16 hstrict hover))
  rename_i hfits
  have hdec : ptdec t.block = .value (decodeTiles t.block) :=
    ptdec_value.2 ⟨by rwa [State.block_length], rfl⟩
  rw [hdec, issueAll_goes_on _ (hexec.trans (startRun_starts h16 hstrict hfits)) nofun]
  exact run_computes ⟨rfl, rfl, h16, Nat.not_lt.1 hfits⟩ hrast herr

/-! The load and the palette. -/

/-- PIPELINE from the pattern text on: the bytes, the capacity check, the rest (R142, R143). -/
def pipelineOfText (s : State) (pattext : Text) : Answer (List (Coord × RGB) × Bool) :=
  (hexparse s.cfg.ws pattext).andThen fun bytes =>
    if !withinCapacity s.cfg.lenMax bytes.length then .refused (.overCapacity bytes.length)
    else pipelineOfBlock s bytes

/-- PIPELINE is the palette and the rest (R154). -/
theorem pipeline_eq (s : State) (paltext pattext : Text) :
    pipeline s.cfg paltext pattext = (palparse s.cfg paltext).andThen fun pal =>
      pipelineOfText ((s.setPal pal).setOut .nothing) pattext := rfl

/-- H_LOAD, H_START and RUN compute PIPELINE of the pattern text (R142, R143). -/
theorem load_start_run_computes {s t : State} (pattext : Text) (hidle : t.phase = .idle)
    (hrast : t.rast = s.rast) (herr : t.err = s.err) :
    Computes s (issueAll [.hLoad pattext, .hStart, .run] t) (pipelineOfText t pattext) := by
  unfold pipelineOfText
  cases hhex : hexparse t.cfg.ws pattext with
  | refused r => exact issueAll_refused _ (conclude_of_refused hidle hhex)
  | raised e info => exact computes_trapEntry _ (conclude_of_raised hidle hhex)
  | value bytes =>
    have hload : exec (.hLoad pattext) t = loadBlock bytes t := conclude_of_value hidle hhex
    by_cases hcap : withinCapacity t.cfg.lenMax bytes.length = true
    · rw [issueAll_goes_on _ (hload.trans (loadBlock_within hcap)) (by simp [hidle])]
      simp only [Answer.andThen, hcap, Bool.not_true, Bool.false_eq_true, if_false]
      have hrest := start_run_computes (s := s)
        (t := (t.setBlock (Memory.ofBytes bytes) bytes.length).setOut .nothing) hidle hrast herr
      have hblock : ((t.setBlock (Memory.ofBytes bytes) bytes.length).setOut .nothing).block =
          bytes := t.block_setBlock bytes
      rw [hblock] at hrest
      exact hrest
    · simp only [Answer.andThen, hcap, Bool.not_false, if_true]
      exact issueAll_refused _ (hload.trans (loadBlock_over hcap))

/-- From IDLE the four operations compute PIPELINE (R141, R154). -/
theorem hostProgram_computes {s : State} (paltext pattext : Text) (hidle : s.phase = .idle) :
    Computes s (issueAll [.hSetpal paltext, .hLoad pattext, .hStart, .run] s)
      (pipeline s.cfg paltext pattext) := by
  rw [pipeline_eq]
  cases hpal : palparse s.cfg paltext with
  | refused r => exact issueAll_refused _ (conclude_of_refused hidle hpal)
  | raised e info => exact computes_trapEntry _ (conclude_of_raised hidle hpal)
  | value pal =>
    have hset : exec (.hSetpal paltext) s = .next ((s.setPal pal).setOut .nothing) :=
      exec_hSetpal_value hidle hpal
    rw [issueAll_goes_on _ hset (by simp [hidle])]
    exact load_start_run_computes pattext hidle rfl rfl

/-- Settles O44: what `hostProgram_computes` says, answer by answer. -/
theorem hostProgramComputesPipeline : Obligations.HostProgramComputesPipeline := by
  intro s paltext pattext hidle
  have h := hostProgram_computes paltext pattext hidle
  split <;> rename_i heq <;> rw [heq] at h <;> exact h

end Sys2Proof.Machine
end
